-- ==== Sys2Proof/Word.lean ====
section
/-! DEFINITION. The two word types: a byte (coordinates in registers, accumulator, transport values)
and a 40-bit command word (30_encoding.md R60). -/

namespace Sys2Proof

/-- Eight bits: ACC, PREVX, a transport value, a field of a command word (10_state.md R20, R26). -/
abbrev Byte := BitVec 8

/-- A command word `cmd[39:0]` (00_scope.md R6, 30_encoding.md R60). -/
abbrev CmdWord := BitVec 40

end Sys2Proof
end

