-- ==== Sys2Proof/Config.lean ====
section
/-! DEFINITION. The parameters of the hardware and the values this hardware takes (00_scope.md R10). The block has
no free value: the spec leaves no result of a command open. -/

namespace Sys2Proof.Config

/-- WIDTH: pixel columns of the surface, byte columns of a bank (R10). -/
abbrev width : Nat := 84

/-- HEIGHT: pixel rows of the surface (R10). -/
abbrev height : Nat := 48

/-- BANKS = HEIGHT / 8 = 6: horizontal banks of eight pixel rows (R10; `Laws.Params.banks_eq`). -/
abbrev banks : Nat := 6

/-- CELLS = WIDTH × BANKS = 504: bytes of display memory (R10; `Laws.Params.cells_eq`). -/
abbrev cells : Nat := 504

/-- SETCOL_BASE: the command byte base of "set column" (R10, R67). -/
def setColBase : Byte := 0x80#8

/-- SETBANK_BASE: the command byte base of "set bank" (R10, R68). -/
def setBankBase : Byte := 0x40#8

/-- COORD_BITS: the width of each coordinate operand, unsigned (R10, R61; the spec's decision D6). -/
abbrev coordBits : Nat := 8

/-- CMD_BITS: the width of the command word (R10, R60; the spec's decision D2). -/
abbrev cmdBits : Nat := 40

/-- FILL_INCLUDE_X1: whether FILLRECT also draws the column at x1 (R10, R121; the spec's decision D15;
notes/assumptions/19.md). -/
def fillIncludeX1 : Bool := false

/-- ACC_RESET (R10, R33; the spec's decision D9; notes/assumptions/7.md). -/
def accReset : Byte := 0x00#8

/-- PREVX_RESET (R10, R33; the spec's decision D9; notes/assumptions/7.md). -/
def prevxReset : Byte := 0x00#8

/-- The most pixel requests one command makes: 255 × 256, by FILLRECT (60_exceptions.md R140). -/
def maxRequests : Nat := 255 * 256

end Sys2Proof.Config
end

