-- ==== Sys2Proof/Syntax.lean ====
section
/-! DEFINITION. The five commands of the block, one constructor for each row of spec/opcode_table.json
(30_encoding.md R63). Operands are mathematical integers (R12, R61); WellFormed.lean bounds them by COORD_BITS. -/

namespace Sys2Proof

/-- A command. Fields the table marks "ignored" are no part of it (R65: they have no effect). POSCUR is internal and
has no opcode (R72); reserved opcodes are no command (R64: see `Decoded.reserved`). -/
inductive Instr where
  /-- CLEAR (44_clear.md R130). -/
  | clear
  /-- SETPIXEL x, y (41_pixel_write.md R90). -/
  | setpixel (x y : Nat)
  /-- DRAWLINE x1, y1, x2, y2 (42_line.md R100). -/
  | drawline (x1 y1 x2 y2 : Nat)
  /-- DRAWRECT left, top, right, bottom (43_rectangles.md R115). -/
  | drawrect (left top right bottom : Nat)
  /-- FILLRECT x0, y0, x1, y1 (43_rectangles.md R120). -/
  | fillrect (x0 y0 x1 y1 : Nat)
  deriving DecidableEq, Repr

end Sys2Proof
end

