-- ==== Sys2Proof/WellFormed.lean ====
section
/-! DEFINITION. Which commands a command word can hold: every operand is an unsigned COORD_BITS-bit integer
(30_encoding.md R61). -/

namespace Sys2Proof

/-- An operand fits its field: it lies in [0, 255] (R61). -/
def operandFits (n : Nat) : Bool := decide (n < 2 ^ Config.coordBits)

/-- Every operand of the command fits its field (R61). -/
def Instr.wellFormed : Instr → Bool
  | .clear => true
  | .setpixel x y => operandFits x && operandFits y
  | .drawline x1 y1 x2 y2 => operandFits x1 && operandFits y1 && operandFits x2 && operandFits y2
  | .drawrect l t r b => operandFits l && operandFits t && operandFits r && operandFits b
  | .fillrect x0 y0 x1 y1 => operandFits x0 && operandFits y0 && operandFits x1 && operandFits y1

/-- The well-formed commands, as a proposition (R61). -/
abbrev WellFormed (i : Instr) : Prop := i.wellFormed = true

end Sys2Proof
end

