-- ==== Sys2Proof/Decode.lean ====
section
/-! DEFINITION. Decoding and encoding of command words (30_encoding.md R60 to R65), their byte-serial form
(20_memory.md R56) and the assembler's names (R71). -/

namespace Sys2Proof

/-- The eight bits of `w` from bit `lo` on (00_scope.md R12: bit 0 is the least significant). -/
def byteAt (w : CmdWord) (lo : Nat) : Byte := w.extractLsb' lo 8

/-- Field op, bits [39:32] (R60). -/
def fieldOp (w : CmdWord) : Byte := byteAt w 32

/-- Field a, bits [31:24] (R60). -/
def fieldA (w : CmdWord) : Byte := byteAt w 24

/-- Field b, bits [23:16] (R60). -/
def fieldB (w : CmdWord) : Byte := byteAt w 16

/-- Field c, bits [15:8] (R60). -/
def fieldC (w : CmdWord) : Byte := byteAt w 8

/-- Field d, bits [7:0] (R60). -/
def fieldD (w : CmdWord) : Byte := byteAt w 0

/-- What a command word stands for: one of the five commands, or a reserved opcode, by its value (R63, R64). -/
inductive Decoded where
  | instr (i : Instr)
  | reserved (op : Byte)
  deriving DecidableEq, Repr

/-- The decoder, total on command words. It looks at `op` alone (R63); operands are the fields taken as unsigned
integers (R61); fields a command ignores are not looked at (R65). -/
def decode (w : CmdWord) : Decoded :=
  match (fieldOp w).toNat with
  | 0x01 => .instr .clear
  | 0x02 => .instr (.setpixel (fieldA w).toNat (fieldB w).toNat)
  | 0x03 => .instr (.drawline (fieldA w).toNat (fieldB w).toNat (fieldC w).toNat (fieldD w).toNat)
  | 0x04 => .instr (.drawrect (fieldA w).toNat (fieldB w).toNat (fieldC w).toNat (fieldD w).toNat)
  | 0x05 => .instr (.fillrect (fieldA w).toNat (fieldB w).toNat (fieldC w).toNat (fieldD w).toNat)
  | _ => .reserved (fieldOp w)

/-- The command word with the five fields op, a, b, c, d, op most significant (R60). -/
def packWord (op a b c d : Byte) : CmdWord := op ++ a ++ b ++ c ++ d

/-- The word of the five fields given as integers, each cut to its eight bits. -/
def packFields (op a b c d : Nat) : CmdWord :=
  packWord (BitVec.ofNat 8 op) (BitVec.ofNat 8 a) (BitVec.ofNat 8 b) (BitVec.ofNat 8 c) (BitVec.ofNat 8 d)

/-- The opcode of each command (R63). -/
def opcodeOf : Instr → Nat
  | .clear => 0x01
  | .setpixel _ _ => 0x02
  | .drawline _ _ _ _ => 0x03
  | .drawrect _ _ _ _ => 0x04
  | .fillrect _ _ _ _ => 0x05

/-- The operands of a command in the order of the fields a, b, c, d (R63, R71). -/
def operandsOf : Instr → List Nat
  | .clear => []
  | .setpixel x y => [x, y]
  | .drawline x1 y1 x2 y2 => [x1, y1, x2, y2]
  | .drawrect l t r b => [l, t, r, b]
  | .fillrect x0 y0 x1 y1 => [x0, y0, x1, y1]

/-- The canonical word of a command: ignored fields hold 0 (R63, R65). -/
def encode (i : Instr) : CmdWord :=
  match operandsOf i with
  | [x, y] => packFields (opcodeOf i) x y 0 0
  | [x1, y1, x2, y2] => packFields (opcodeOf i) x1 y1 x2 y2
  | _ => packFields (opcodeOf i) 0 0 0 0

/-- A command word carried over a byte-wide path: the opcode byte first, `cmd[7:0]` last (20_memory.md R56). -/
def bytesOfWord (w : CmdWord) : List Byte := [fieldOp w, fieldA w, fieldB w, fieldC w, fieldD w]

/-- The decoder on a byte-wide path: it takes five bytes, opcode first, and leaves the rest; fewer than five bytes
are no command yet (R56, R60). -/
def decodeBytes : List Byte → Option (Decoded × List Byte)
  | op :: a :: b :: c :: d :: rest => some (decode (packWord op a b c d), rest)
  | _ => none

/-- The decoder on a word numbered as spec/opcode_table.json numbers it: one 40-bit word, op in bits 39..32. Bits
from `nbits` on are 0; more than CMD_BITS bits are no command word (R60). A reserved opcode is no row of the table. -/
def decodeTableWord (nbits w : Nat) : Option Instr :=
  if nbits ≤ Config.cmdBits then
    match decode (BitVec.ofNat 40 (w % 2 ^ nbits)) with
    | .instr i => some i
    | .reserved _ => none
  else none

/-- The assembler's mnemonic (R71). -/
def mnemonicOf : Instr → String
  | .clear => "CLEAR"
  | .setpixel _ _ => "SETPIXEL"
  | .drawline _ _ _ _ => "DRAWLINE"
  | .drawrect _ _ _ _ => "DRAWRECT"
  | .fillrect _ _ _ _ => "FILLRECT"

/-- The source's procedure name of a command, accepted as an alias (R71). -/
def aliasOf : Instr → String
  | .clear => "clear"
  | .setpixel _ _ => "setPixel"
  | .drawline _ _ _ _ => "drawLine"
  | .drawrect _ _ _ _ => "drawRectOutline"
  | .fillrect _ _ _ _ => "drawRectFilled"

/-- The command a mnemonic and a list of operands name, by the number of operands and the name (R71). -/
def commandNamed (name : String) (ops : List Nat) : Option Instr :=
  let candidates : List Instr :=
    match ops with
    | [] => [.clear]
    | [x, y] => [.setpixel x y]
    | [p, q, r, t] => [.drawline p q r t, .drawrect p q r t, .fillrect p q r t]
    | _ => []
  candidates.find? fun i => (name == mnemonicOf i || name == aliasOf i) && i.wellFormed

/-- The value of a digit character in a base of at most 16. -/
def digitValue (base : Nat) (c : Char) : Option Nat :=
  let n := c.toNat
  let v := if 48 ≤ n ∧ n ≤ 57 then n - 48 else if 97 ≤ n ∧ n ≤ 102 then n - 87 else if 65 ≤ n ∧ n ≤ 70 then n - 55 else base
  if v < base then some v else none

/-- The value of a nonempty digit string, most significant digit first. -/
def digitsValue (base : Nat) : Nat → List Char → Option Nat
  | acc, [] => some acc
  | acc, c :: cs => (digitValue base c).bind fun v => digitsValue base (acc * base + v) cs

/-- An operand: decimal, or hexadecimal after `0x` (R71). -/
def operandValue : List Char → Option Nat
  | [] => none
  | '0' :: 'x' :: c :: cs => digitsValue 16 0 (c :: cs)
  | c :: cs => digitsValue 10 0 (c :: cs)

/-- The operands of a line, separated by commas, spaces ignored (R71). -/
def operandList (cs : List Char) : Option (List Nat) :=
  match cs.filter (· != ' ') with
  | [] => some []
  | d :: ds => ((d :: ds).splitOn ',').mapM operandValue

/-- One assembler line `MNEMONIC operand, operand, …` and the word it assembles to (R71; ignored fields 0). -/
def assemble (line : String) : Option CmdWord :=
  let cs := line.toList
  (operandList (cs.dropWhile (· != ' '))).bind fun ops =>
    (commandNamed (String.ofList (cs.takeWhile (· != ' '))) ops).map encode

/-- A program: its lines, assembled in order (R71, 10_state.md R28). -/
def assembleProgram (lines : List String) : Option (List CmdWord) := lines.mapM assemble

end Sys2Proof
end

