-- ==== Sys2Proof/Machine/State.lean ====
section
/-! DEFINITION. The state of the machine as plain data: the block (cache, and the running operation while BUSY = 1),
the controller's reference model, the two traces an observer sees, and the script of what the outside does next
(10_state.md R20; 00_scope.md R5, R14). -/

namespace Sys2Proof.Machine

/-- The mode of a transport event (30_encoding.md R66). Its bit on the pin is `TxMode.bit`. -/
inductive TxMode where
  | command
  | data
  deriving DecidableEq, Repr

/-- A transport event `Send(mode, value)` as it stands on the channel (00_scope.md R7, R13). -/
structure TxEvent where
  mode : TxMode
  value : Byte
  deriving DecidableEq, Repr

/-- What the block can send, with operands only in range (40_addressing.md R82, 30_encoding.md R70): set column,
set bank, one data byte. Its bytes are `Send.event`. -/
inductive Send where
  | column (c : Fin Config.width)
  | bank (b : Fin Config.banks)
  | data (v : Byte)
  deriving DecidableEq, Repr

/-- A pixel request (x, y), in range or not (00_scope.md R14 (b)). -/
abbrev Request := Nat × Nat

/-- Where a pixel stands in display memory: column, bank, bit (20_memory.md R42). -/
structure Place where
  column : Fin Config.width
  bank : Fin Config.banks
  bit : Fin 8
  deriving DecidableEq, Repr

/-- The write-coalescing cache: ACC and PREVX, the block's whole architectural state (10_state.md R20 to R24). -/
structure Cache where
  acc : Byte
  prevx : Byte
  deriving DecidableEq, Repr

/-- Display memory as the cells that have been written: key of the cell (`cellKey`) and byte, keys rising
(20_memory.md R40). A cell that is not listed has no known value (U5; notes/assumptions/6.md). -/
abbrev Memory := List Host.Cell

/-- The controller's reference model: cursor and display memory (20_memory.md R47). -/
structure Controller where
  cx : Fin Config.width
  cy : Fin Config.banks
  ddram : Memory
  deriving DecidableEq, Repr

/-- TXPHASE (10_state.md R26): which event of the current pixel, or of CLEAR, is being offered. `done` is passed
through within a clock cycle and never rests in a state a run reaches. -/
inductive TxPhase where
  | column
  | bank
  | data
  | done
  deriving DecidableEq, Repr

/-- The line rasterizer's registers with the widths of 10_state.md R26. -/
structure LineRegs where
  curx : Byte
  cury : Byte
  dmaj : Byte
  dmin : Byte
  xmaj : Bool
  sxneg : Bool
  syneg : Bool
  err : BitVec 11
  iter : BitVec 9
  deriving DecidableEq, Repr

/-- The registers a drawing operation uses (R26): SETPIXEL its pixel alone; DRAWRECT also EDGE; FILLRECT also COLCNT
(columns still to draw, the current one among them) and COLX. -/
inductive Draw where
  | pixel (curx cury : Byte)
  | line (regs : LineRegs)
  | rect (edge : BitVec 2) (regs : LineRegs)
  | fill (colcnt colx : Byte) (regs : LineRegs)
  deriving DecidableEq, Repr

/-- The sub-block at work: the clear engine with CLRCNT, or a drawing operation (R26). -/
inductive Engine where
  | clear (clrcnt : BitVec 9)
  | draw (d : Draw)
  deriving DecidableEq, Repr

/-- What the block holds while BUSY = 1 and only then: the operand latches OPC, OPA, OPB, OPC2, OPD, TXPHASE and the
working registers of the sub-block at work (R26; notes/assumptions/8.md). -/
structure Running where
  opc : Byte
  opa : Byte
  opb : Byte
  opc2 : Byte
  opd : Byte
  txphase : TxPhase
  engine : Engine
  deriving DecidableEq, Repr

/-- The input pins in one clock cycle (00_scope.md R6, R7; 70_reset_and_hazards.md R160). -/
structure Pins where
  rst : Bool
  cmdValid : Bool
  cmd : CmdWord
  txReady : Bool
  deriving DecidableEq, Repr

/-- The output pins (00_scope.md R6, R7, R9): `tx` is the event offered, none when tx_valid = 0. -/
structure Outputs where
  cmdReady : Bool
  busy : Bool
  tx : Option TxEvent
  deriving DecidableEq, Repr

/-- One thing the outside does (notes/assumptions/2.md). -/
inductive Input where
  /-- The host offers a command word and the transport is ready for every event (R6, R8). -/
  | command (w : CmdWord)
  /-- One clock cycle with these pins (R6, R7, R160). -/
  | clock (p : Pins)
  /-- Another user of the transport sends a byte to the controller (20_memory.md R57). -/
  | foreign (e : TxEvent)
  deriving DecidableEq, Repr

/-- The machine. -/
structure State where
  /-- ACC and PREVX (R21, R22). -/
  cache : Cache
  /-- The operation under way: BUSY = 1 exactly when there is one (R25, R26). -/
  running : Option Running
  /-- The controller (environment; R32, R47). -/
  controller : Controller
  /-- The transport trace, oldest first (00_scope.md R14 (a)). -/
  trace : List TxEvent
  /-- The pixel-request trace, oldest first (R14 (b)). -/
  requests : List Request
  /-- What the outside does next, first first (R28, R35; notes/assumptions/2.md). -/
  inputs : List Input
  deriving DecidableEq, Repr

/-- Faults: there is none. "The block raises no exception, ever" (60_exceptions.md R140), so this type has no
constructor and no step can answer a fault. -/
inductive Fault where
  deriving DecidableEq, Repr

/-- Why a step is refused. No command's meaning raises one of these. -/
inductive Refusal where
  /-- Raised by an arm of `exec` for an instruction without a meaning; no arm does. Safe. -/
  | notModelled (mnemonic : String)
  /-- Raised by the input `foreign` while BUSY = 1: foreign bytes inside an operation are outside every claim
  (U9; 20_memory.md R57). Safe: the model stops where hardware goes on. -/
  | foreignWhileBusy
  /-- Raised by the input `foreign` for a command byte the controller's reference model does not describe
  (U4; 20_memory.md R47). Safe: the model stops where the controller goes on. -/
  | controllerByteOutsideModel (e : TxEvent)
  deriving DecidableEq, Repr

/-- The machine right after reset (10_state.md R33; 70_reset_and_hazards.md R160): ACC and PREVX at their reset
values, BUSY = 0, nothing sent. The spec gives the controller no value: cursor (0, 0) (notes/assumptions/5.md), every
cell unknown (notes/assumptions/6.md). No program is placed (notes/assumptions/17.md). -/
def State.reset : State where
  cache := { acc := Config.accReset, prevx := Config.prevxReset }
  running := none
  controller := { cx := 0, cy := 0, ddram := [] }
  trace := []
  requests := []
  inputs := []

end Sys2Proof.Machine
end

