-- ==== Sys2Proof/Machine/Flags.lean ====
section
/-! DEFINITION. The block has no flags (10_state.md R29). What decides anything in it are these tests, none of which
leaves a flag behind. -/

namespace Sys2Proof.Machine

/-- The range check of a pixel request (41_pixel_write.md R92). -/
def inRange (x y : Nat) : Bool := decide (x < Config.width) && decide (y < Config.height)

/-- The driving axis is x when its magnitude is the larger or they are equal (42_line.md R102; D12). -/
def xMajor (dx dy : Nat) : Bool := decide (dy ≤ dx)

/-- A step sign is negative exactly when the target lies below the start; a zero delta counts as +1 (R102; D13). -/
def stepNeg (start target : Nat) : Bool := decide (target < start)

/-- The minor axis steps: `e ≥ dmaj` when it steps upwards, `e > dmaj` when it steps downwards (R103; D11). -/
def crosses (minorNeg : Bool) (e : Int) (dmaj : Nat) : Bool :=
  if minorNeg then decide ((dmaj : Int) < e) else decide ((dmaj : Int) ≤ e)

end Sys2Proof.Machine
end

