-- ==== Sys2Proof/Machine/Operands.lean ====
section
/-! DEFINITION. From operands to what the operations work on: the translation of a pixel coordinate
(20_memory.md R42), magnitudes and unit steps (45_command_summary.md R136), the pixel requests of a line
(42_line.md R101) and the columns of a fill (43_rectangles.md R120). -/

namespace Sys2Proof.Machine

/-- `Translate(x, y)`: column x, bank y div 8, bit y mod 8 when in range; otherwise none (20_memory.md R42, R43). -/
def translate (x y : Nat) : Option Place :=
  if h : x < Config.width ∧ y < Config.height then
    some { column := ⟨x, h.1⟩, bank := ⟨y / 8, Nat.div_lt_of_lt_mul h.2⟩, bit := ⟨y % 8, Nat.mod_lt y (by decide)⟩ }
  else none

/-- `|v − u|` of two unsigned values, never a wrapped difference (R109, R136 (2)). -/
def magnitude (u v : Nat) : Nat := if u ≤ v then v - u else u - v

/-- A coordinate moved by one unit step (R136 (3)). -/
def moveCoord (neg : Bool) (c : Nat) : Nat := if neg then c - 1 else c + 1

/-- What a line fixes before its first iteration (42_line.md R101, R102). -/
structure LineParams where
  xmajor : Bool
  sxneg : Bool
  syneg : Bool
  dmaj : Nat
  dmin : Nat
  deriving DecidableEq, Repr

/-- What changes from iteration to iteration of a line: the current pixel and the error term (R101). -/
structure LinePos where
  x : Nat
  y : Nat
  e : Int
  deriving DecidableEq, Repr

/-- The set-up of `Line(x1, y1, x2, y2)` (R101, R102). -/
def lineParams (x1 y1 x2 y2 : Nat) : LineParams :=
  let dx := magnitude x1 x2
  let dy := magnitude y1 y2
  { xmajor := xMajor dx dy
    sxneg := stepNeg x1 x2
    syneg := stepNeg y1 y2
    dmaj := if xMajor dx dy then dx else dy
    dmin := if xMajor dx dy then dy else dx }

/-- The step sign of the minor axis is −1 (`smin` of R101). -/
def LineParams.minorNeg (p : LineParams) : Bool := if p.xmajor then p.syneg else p.sxneg

/-- One advance: the driving axis steps, the error term grows by `2·dmin`, and if it crosses the minor axis steps
and `2·dmaj` is subtracted (R101, R103). -/
def LineParams.advance (p : LineParams) (q : LinePos) : LinePos :=
  let e := q.e + 2 * (p.dmin : Int)
  let cross := crosses p.minorNeg e p.dmaj
  { x := if p.xmajor || cross then moveCoord p.sxneg q.x else q.x
    y := if !p.xmajor || cross then moveCoord p.syneg q.y else q.y
    e := if cross then e - 2 * (p.dmaj : Int) else e }

/-- The requests of a line from a position on, with `n` advances still to make (R101, R105). -/
def lineFrom (p : LineParams) : Nat → LinePos → List Request
  | 0, q => [(q.x, q.y)]
  | n + 1, q => (q.x, q.y) :: lineFrom p n (p.advance q)

/-- The pixel requests of `Line(x1, y1, x2, y2)` in order: `dmaj + 1` of them, starting at (x1, y1) (R101, R105). -/
def lineRequests (x1 y1 x2 y2 : Nat) : List Request :=
  let p := lineParams x1 y1 x2 y2
  lineFrom p p.dmaj { x := x1, y := y1, e := 0 }

/-- How many columns FILLRECT draws: `|x1 − x0|`, one more with FILL_INCLUDE_X1 (43_rectangles.md R120, R121). -/
def fillCount (includeX1 : Bool) (x0 x1 : Nat) : Nat := magnitude x0 x1 + (if includeX1 then 1 else 0)

/-- The x of the `k`-th column of a fill, `x0 + s·k` (R120). -/
def fillColumn (x0 x1 k : Nat) : Nat := if stepNeg x0 x1 then x0 - k else x0 + k

/-- The columns of a fill from x0 toward x1 (R120). -/
def fillColumns (includeX1 : Bool) (x0 x1 : Nat) : List Nat :=
  (List.range (fillCount includeX1 x0 x1)).map (fillColumn x0 x1)

end Sys2Proof.Machine
end

