-- ==== Sys2Proof/Machine/Ops.lean ====
section
/-! DEFINITION. The shared operations: display memory, the bytes of transport events, the controller's reference
model, and sending. There is no exception, no trap entry and no return from one to model
(60_exceptions.md R140, R145, R146). -/

namespace Sys2Proof.Machine

/-- The key of a cell (column, bank) in `Memory`: bank × WIDTH + column, the order in which auto-increment visits
the cells (20_memory.md R48; notes/assumptions/16.md). -/
def cellKey (column : Fin Config.width) (bank : Fin Config.banks) : Nat := bank.val * Config.width + column.val

/-- The byte of a cell; none when nothing has written it: its value is unknown (U5; notes/assumptions/6.md). -/
def Memory.read : Memory → Nat → Option Byte
  | [], _ => none
  | (k, v) :: m, a => if k = a then some v else Memory.read m a

/-- The whole cell replaced by `v` (20_memory.md R46), keys kept rising. -/
def Memory.write : Memory → Nat → Byte → Memory
  | [], a, v => [(a, v)]
  | (k, u) :: m, a, v =>
    if a < k then (a, v) :: (k, u) :: m
    else if a = k then (a, v) :: m
    else (k, u) :: Memory.write m a v

/-- The canonical form: keys strictly rising, each the key of one of the 504 cells (20_memory.md R40). An entry never
equals what an unlisted cell reads as, which is no value. -/
def Memory.wf (m : Memory) : Bool :=
  decide (m.Pairwise fun p q => p.1 < q.1) && m.all fun p => decide (p.1 < Config.cells)

/-- tx_mode: 0 COMMAND, 1 DATA (30_encoding.md R66; the spec's decision D7). -/
def TxMode.bit : TxMode → BitVec 1
  | .command => 0#1
  | .data => 1#1

/-- The transport event of what the block sends: `0x80 | column`, `0x40 | bank`, or the data byte
(30_encoding.md R67, R68, R69). -/
def Send.event : Send → TxEvent
  | .column c => { mode := .command, value := Config.setColBase ||| BitVec.ofNat 8 c.val }
  | .bank b => { mode := .command, value := Config.setBankBase ||| BitVec.ofNat 8 b.val }
  | .data v => { mode := .data, value := v }

/-- How the controller reads an event: bit 7 set is "set column" with the column in bits [6:0]; bits [7:6] = 01 is
"set bank" with the bank in bits [2:0] and bits [5:3] = 000, so that bits [5:0] are the bank (30_encoding.md R68); a data
byte is data. Every command byte but `0x80 | c`, c < 84, and `0x40 | b`, b < 6, is outside the reference model
(20_memory.md R47, R49; 93_implementation_defined.md U4; notes/assumptions/13.md). -/
def readEvent (e : TxEvent) : Option Send :=
  match e.mode with
  | .data => some (.data e.value)
  | .command =>
    if e.value.getLsbD 7 then
      let c := (e.value.extractLsb' 0 7).toNat
      if h : c < Config.width then some (.column ⟨c, h⟩) else none
    else if e.value.getLsbD 6 then
      let b := (e.value.extractLsb' 0 6).toNat
      if h : b < Config.banks then some (.bank ⟨b, h⟩) else none
    else none

/-- The cursor moved on by one cell: the next column; from the last column to column 0 of the next bank; from the
last bank to bank 0 (20_memory.md R48; the spec's decision D20; notes/assumptions/15.md). -/
def Controller.advance (c : Controller) : Controller :=
  if h : c.cx.val + 1 < Config.width then { c with cx := ⟨c.cx.val + 1, h⟩ }
  else { c with cx := 0, cy := ⟨(c.cy.val + 1) % Config.banks, Nat.mod_lt _ (by decide)⟩ }

/-- What the controller does with an event it can read (R47): move its cursor, or store the byte and move on. -/
def Controller.apply (c : Controller) : Send → Controller
  | .column x => { c with cx := x }
  | .bank b => { c with cy := b }
  | .data v => Controller.advance { c with ddram := c.ddram.write (cellKey c.cx c.cy) v }

/-- The controller consuming an event as it stands on the channel; none when its reference model does not describe
the byte (R47, U4). -/
def Controller.receive (c : Controller) (e : TxEvent) : Option Controller := (readEvent e).map c.apply

/-- The controller consuming a list of events in order (R47, R51). -/
def Controller.receiveAll : Controller → List TxEvent → Option Controller
  | c, [] => some c
  | c, e :: es => (c.receive e).bind fun d => Controller.receiveAll d es

/-- Pixel (x, y) is lit: the bit of its cell (R47, R41); none when it is off the surface or its cell is unknown. -/
def Controller.lit (c : Controller) (x y : Nat) : Option Bool :=
  (translate x y).bind fun p => (c.ddram.read (cellKey p.column p.bank)).map fun v => v.getLsbD p.bit.val

/-- `Send(mode, value)`: one transport event delivered: it joins the trace and the controller consumes it
(00_scope.md R13, 20_memory.md R51). It returns nothing and cannot fail (R7). -/
def State.send (s : State) (e : Send) : State :=
  { s with trace := s.trace ++ [e.event], controller := s.controller.apply e }

/-- `PosCur(column, bank)`: the set-column byte, then the set-bank byte, always both (40_addressing.md R80, R81). Its
type admits only in-range operands (R82). -/
def State.posCur (s : State) (column : Fin Config.width) (bank : Fin Config.banks) : State :=
  (s.send (.column column)).send (.bank bank)

/-- The observer's note of a pixel request, in range or not (00_scope.md R14 (b)). -/
def State.note (s : State) (r : Request) : State := { s with requests := s.requests ++ [r] }

/-- The same state with other inputs still to come. -/
def State.setInputs (s : State) (rest : List Input) : State := { s with inputs := rest }

/-- BUSY (10_state.md R25). -/
def State.busy (s : State) : Bool := s.running.isSome

/-- Steps 3 and 4 of the pixel write primitive: a new x clears ACC, then the bit is set (41_pixel_write.md R91). -/
def Cache.build (c : Cache) (p : Place) : Cache :=
  { c with acc := (if p.column.val = c.prevx.toNat then c.acc else 0x00#8) ||| (1#8 <<< p.bit.val) }

/-- Step 6: x becomes the previous x (R91). -/
def Cache.record (c : Cache) (x : Byte) : Cache := { c with prevx := x }

/-- A reserved opcode: the command is accepted and completes with no event and no change (30_encoding.md R64). -/
def reservedCommand (_op : Byte) (s : State) : State := s

/-- A byte of another user of the transport, sent between two commands (20_memory.md R57). While BUSY = 1 it is
outside the model (U9), as is a command byte the controller's model does not describe (U4). It is no event of the block
and does not join the trace. -/
def foreignByte (e : TxEvent) (s : State) : Host.Outcome State Fault Refusal :=
  if s.busy then .refused .foreignWhileBusy
  else match s.controller.receive e with
    | some c => .next { s with controller := c }
    | none => .refused (.controllerByteOutsideModel e)

/-- No input: the block waits, idle or with its event offered (70_reset_and_hazards.md R162, 60_exceptions.md R155;
notes/assumptions/3.md). -/
def waitForInput (s : State) : State := s

end Sys2Proof.Machine
end

