-- ==== Sys2Proof/Machine/Pixel.lean ====
section
/-! DEFINITION. The pixel write primitive with coalescing and SETPIXEL (41_pixel_write.md). -/

namespace Sys2Proof.Machine

/-- `Pixel(x, y)` in the source's six steps (41_pixel_write.md R91): range check; bank and bit; a new x clears ACC; the
bit is set; the cursor is positioned and ACC sent; x is recorded. A request out of range is dropped (R93). -/
def pixel (s : State) (r : Request) : State :=
  let s := s.note r
  match translate r.1 r.2 with
  | none => s
  | some p =>
    let s := { s with cache := s.cache.build p }
    let s := (s.posCur p.column p.bank).send (.data s.cache.acc)
    { s with cache := s.cache.record (BitVec.ofNat 8 p.column.val) }

/-- Pixel requests carried out one after the other (00_scope.md R2). -/
def drawAll (s : State) (rs : List Request) : State := rs.foldl pixel s

/-- SETPIXEL x, y (R90). -/
def execSetpixel (x y : Nat) (s : State) : Host.Outcome State Fault Refusal := .next (pixel s (x, y))

end Sys2Proof.Machine
end

