-- ==== Sys2Proof/Machine/Clock.lean ====
section
/-! DEFINITION. The block in one clock cycle: the channels of 00_scope.md R6 and R7, BUSY, the operand latches and
working registers of 10_state.md R25 and R26, stalls (60_exceptions.md R155) and reset (70_reset_and_hazards.md R160 to
R163). A cycle in which an event is delivered does all the silent work up to the next event, so BUSY falls with the
last event (R25; notes/assumptions/9.md). No timing is meant by a cycle (R181). -/

namespace Sys2Proof.Machine

/-- A coordinate register moved by one unit step; it never wraps (42_line.md R109). -/
def moveReg (neg : Bool) (c : Byte) : Byte := if neg then c - 1#8 else c + 1#8

/-- The line rasterizer loaded for `Line(x1, y1, x2, y2)` (42_line.md R101). -/
def LineRegs.start (x1 y1 x2 y2 : Byte) : LineRegs :=
  let p := lineParams x1.toNat y1.toNat x2.toNat y2.toNat
  { curx := x1
    cury := y1
    dmaj := BitVec.ofNat 8 p.dmaj
    dmin := BitVec.ofNat 8 p.dmin
    xmaj := p.xmajor
    sxneg := p.sxneg
    syneg := p.syneg
    err := 0#11
    iter := 0#9 }

/-- The minor axis steps, on the error register: `e > dmaj` downwards, `e ≥ dmaj` upwards, signed (R103). -/
def LineRegs.crosses (l : LineRegs) (e : BitVec 11) : Bool :=
  if (if l.xmaj then l.syneg else l.sxneg) then (l.dmaj.setWidth 11).slt e else (l.dmaj.setWidth 11).sle e

/-- One advance of the line rasterizer's registers (R101, R103; widths of R109). -/
def LineRegs.advance (l : LineRegs) : LineRegs :=
  let e := l.err + (l.dmin.setWidth 11 <<< 1)
  let cross := l.crosses e
  { l with
    curx := if l.xmaj || cross then moveReg l.sxneg l.curx else l.curx
    cury := if !l.xmaj || cross then moveReg l.syneg l.cury else l.cury
    err := if cross then e - (l.dmaj.setWidth 11 <<< 1) else e
    iter := l.iter + 1#9 }

/-- Advances are still to be made: fewer than DMAJ are done (R101, R105). -/
def LineRegs.more (l : LineRegs) : Bool := decide (l.iter.toNat < l.dmaj.toNat)

/-- The line of edge `edge` of an outline whose operands are latched (43_rectangles.md R115, R116). -/
def edgeLine (r : Running) (edge : BitVec 2) : LineRegs :=
  match edge.toNat with
  | 0 => .start r.opa r.opb r.opc2 r.opb
  | 1 => .start r.opa r.opd r.opc2 r.opd
  | 2 => .start r.opa r.opb r.opa r.opd
  | _ => .start r.opc2 r.opb r.opc2 r.opd

/-- The line of column `x` of a fill whose operands are latched (43_rectangles.md R120). -/
def columnLine (r : Running) (x : Byte) : LineRegs := .start x r.opb x r.opd

/-- The current pixel request of a drawing operation: CURX, CURY. -/
def Draw.request : Draw → Request
  | .pixel x y => (x.toNat, y.toNat)
  | .line l => (l.curx.toNat, l.cury.toNat)
  | .rect _ l => (l.curx.toNat, l.cury.toNat)
  | .fill _ _ l => (l.curx.toNat, l.cury.toNat)

/-- The registers at the next pixel request of the operation, none after its last. -/
def Draw.next (r : Running) : Draw → Option Draw
  | .pixel _ _ => none
  | .line l => if l.more then some (.line l.advance) else none
  | .rect edge l =>
    if l.more then some (.rect edge l.advance)
    else if edge = 3#2 then none
    else some (.rect (edge + 1#2) (edgeLine r (edge + 1#2)))
  | .fill colcnt colx l =>
    if l.more then some (.fill colcnt colx l.advance)
    else if colcnt.toNat ≤ 1 then none
    else
      let x := moveReg (stepNeg r.opa.toNat r.opc2.toNat) colx
      some (.fill (colcnt - 1#8) x (columnLine r x))

/-- The operation takes up the request `d` stands at, and if that is dropped the ones after it, until one is in range:
then ACC is built and its column command is offered. When none is left the operation is over (41_pixel_write.md R91 to
R93). `fuel` bounds how many requests may follow. -/
def takeUp : Nat → Running → Draw → State → State
  | fuel, r, d, s =>
    let s := s.note d.request
    match translate d.request.1 d.request.2 with
    | some p => { s with cache := s.cache.build p, running := some { r with txphase := .column, engine := .draw d } }
    | none =>
      match fuel, d.next r with
      | fuel + 1, some d' => takeUp fuel r d' s
      | _, _ => { s with running := none }

/-- A command is accepted in this cycle (00_scope.md R6): the fields are latched and the operation begins. A reserved
opcode, and a command without transport events, is over at once (10_state.md R25, 30_encoding.md R64). -/
def accept (w : CmdWord) (s : State) : State :=
  let r : Running :=
    { opc := fieldOp w, opa := fieldA w, opb := fieldB w, opc2 := fieldC w, opd := fieldD w
      txphase := .column, engine := .clear 0#9 }
  match decode w with
  | .reserved op => reservedCommand op s
  | .instr .clear => { s with running := some r }
  | .instr (.setpixel _ _) => takeUp Config.maxRequests r (.pixel r.opa r.opb) s
  | .instr (.drawline _ _ _ _) => takeUp Config.maxRequests r (.line (.start r.opa r.opb r.opc2 r.opd)) s
  | .instr (.drawrect _ _ _ _) => takeUp Config.maxRequests r (.rect 0#2 (edgeLine r 0#2)) s
  | .instr (.fillrect _ _ _ _) =>
    match fillCount Config.fillIncludeX1 r.opa.toNat r.opc2.toNat with
    | 0 => s
    | n => takeUp Config.maxRequests r (.fill (BitVec.ofNat 8 n) r.opa (columnLine r r.opa)) s

/-- The event the operation offers (tx_valid = 1), by TXPHASE: for CLEAR the position (0, 0) and zero bytes, for a
drawing operation the position of the current pixel and ACC (44_clear.md R130, 41_pixel_write.md R91). -/
def Running.offer (r : Running) (c : Cache) : Option Send :=
  match r.engine, r.txphase with
  | .clear _, .column => some (.column 0)
  | .clear _, .bank => some (.bank 0)
  | .clear _, .data => some (.data 0x00#8)
  | .draw d, .column => (translate d.request.1 d.request.2).map fun p => .column p.column
  | .draw d, .bank => (translate d.request.1 d.request.2).map fun p => .bank p.bank
  | .draw _, .data => some (.data c.acc)
  | _, .done => none

/-- The current pixel, or zero byte, is finished: go on to the next one or end the operation; the x of a pixel that was
drawn becomes PREVX (41_pixel_write.md R91 step 6, 44_clear.md R130). -/
def proceed (r : Running) (s : State) : State :=
  match r.engine with
  | .clear n =>
    if n.toNat + 1 < Config.cells then
      { s with running := some { r with txphase := .data, engine := .clear (n + 1#9) } }
    else { s with running := none }
  | .draw d =>
    let s := { s with cache := s.cache.record (BitVec.ofNat 8 d.request.1) }
    match d.next r with
    | some d' => takeUp Config.maxRequests r d' s
    | none => { s with running := none }

/-- After the offered event is delivered: TXPHASE moves on; after the data byte the operation proceeds. -/
def afterEvent (r : Running) (s : State) : State :=
  match r.txphase with
  | .column => { s with running := some { r with txphase := .bank } }
  | .bank => { s with running := some { r with txphase := .data } }
  | .data => proceed { r with txphase := .done } s
  | .done => proceed r s

/-- Reset of the block: the cache takes its reset values and a running operation is abandoned; nothing is sent and the
controller is not reached (70_reset_and_hazards.md R160, R161, R163). -/
def State.resetBlock (s : State) : State :=
  { s with cache := { acc := Config.accReset, prevx := Config.prevxReset }, running := none }

/-- The output pins in a cycle with `rst` as given: cmd_ready = NOT BUSY (10_state.md R25); while rst = 1 nothing is
offered, BUSY reads 0 and cmd_ready 1 (70_reset_and_hazards.md R160). -/
def State.outputs (s : State) (rst : Bool) : Outputs :=
  if rst then { cmdReady := true, busy := false, tx := none }
  else
    { cmdReady := !s.busy
      busy := s.busy
      tx := (s.running.bind fun r => r.offer s.cache).map Send.event }

/-- One clock cycle (00_scope.md R6, R7): reset wins; an idle block accepts an offered command; a busy block delivers the
event it offers if the transport is ready, and else holds it (60_exceptions.md R155). -/
def cycle (p : Pins) (s : State) : State :=
  if p.rst then s.resetBlock
  else
    match s.running with
    | none => if p.cmdValid then accept p.cmd s else s
    | some r =>
      match r.offer s.cache with
      | some e => if p.txReady then afterEvent r (s.send e) else s
      | none => proceed r s

/-- Clock cycles one after the other. -/
def cycles (ps : List Pins) (s : State) : State := ps.foldl (fun s p => cycle p s) s

/-- The pins of a cycle in which the host offers nothing and the transport is ready. -/
def readyPins : Pins := { rst := false, cmdValid := false, cmd := 0#40, txReady := true }

/-- The pins of a cycle in which the host offers `w` and the transport is ready. -/
def offerPins (w : CmdWord) : Pins := { rst := false, cmdValid := true, cmd := w, txReady := true }

/-- A command offered while BUSY = 1 is not accepted (60_exceptions.md R144): it stays offered, and the running
operation has one clock cycle with the transport ready (notes/assumptions/4.md). -/
def heldCommand (w : CmdWord) (s : State) : State := cycle (offerPins w) s

end Sys2Proof.Machine
end

