-- ==== Sys2Proof/Machine/Clear.lean ====
section
/-! DEFINITION. The display surface clear engine and CLEAR (44_clear.md). -/

namespace Sys2Proof.Machine

/-- `n` data bytes 0x00 (44_clear.md R130). -/
def sendZeros : Nat → State → State
  | 0, s => s
  | n + 1, s => sendZeros n (s.send (.data 0x00#8))

/-- CLEAR: the cursor to (0, 0) once, then 504 zero bytes; the cache is not touched (R130, R132). -/
def execClear (s : State) : Host.Outcome State Fault Refusal := .next (sendZeros Config.cells (s.posCur 0 0))

end Sys2Proof.Machine
end

