-- ==== Sys2Proof/Machine/Line.lean ====
section
/-! DEFINITION. The line rasterizer and DRAWLINE (42_line.md). -/

namespace Sys2Proof.Machine

/-- `Line(x1, y1, x2, y2)`: one pixel request an iteration (42_line.md R101, R105). -/
def line (x1 y1 x2 y2 : Nat) (s : State) : State := drawAll s (lineRequests x1 y1 x2 y2)

/-- DRAWLINE x1, y1, x2, y2 (R100). -/
def execDrawline (x1 y1 x2 y2 : Nat) (s : State) : Host.Outcome State Fault Refusal := .next (line x1 y1 x2 y2 s)

end Sys2Proof.Machine
end

