-- ==== Sys2Proof/Machine/Rect.lean ====
section
/-! DEFINITION. The rectangle rasterizer: DRAWRECT and FILLRECT (43_rectangles.md). -/

namespace Sys2Proof.Machine

/-- `Rect(l, t, r, b)`: the edges at y = top and y = bottom from left to right, then the edges at x = left and
x = right from top to bottom (43_rectangles.md R115, R116). -/
def rect (l t r b : Nat) (s : State) : State :=
  let s := line l t r t s
  let s := line l b r b s
  let s := line l t l b s
  line r t r b s

/-- `Fill(x0, y0, x1, y1)`: one vertical line for each column (R120). -/
def fill (includeX1 : Bool) (x0 y0 x1 y1 : Nat) (s : State) : State :=
  (fillColumns includeX1 x0 x1).foldl (fun s x => line x y0 x y1 s) s

/-- DRAWRECT left, top, right, bottom (R115). -/
def execDrawrect (left top right bottom : Nat) (s : State) : Host.Outcome State Fault Refusal :=
  .next (rect left top right bottom s)

/-- FILLRECT x0, y0, x1, y1; the column at x1 is not drawn (R120, R121). -/
def execFillrect (x0 y0 x1 y1 : Nat) (s : State) : Host.Outcome State Fault Refusal :=
  .next (fill Config.fillIncludeX1 x0 y0 x1 y1 s)

end Sys2Proof.Machine
end

