-- ==== Sys2Proof/Machine/Dispatch.lean ====
section
/-! DEFINITION. One arm for each command: what a whole command does, the function Exec of 00_scope.md R8. -/

namespace Sys2Proof.Machine

def exec (i : Instr) (s : State) : Host.Outcome State Fault Refusal :=
  match i with
  | .clear => Sys2Proof.Machine.execClear s
  | .setpixel x y => Sys2Proof.Machine.execSetpixel x y s
  | .drawline x1 y1 x2 y2 => Sys2Proof.Machine.execDrawline x1 y1 x2 y2 s
  | .drawrect left top right bottom => Sys2Proof.Machine.execDrawrect left top right bottom s
  | .fillrect x0 y0 x1 y1 => Sys2Proof.Machine.execFillrect x0 y0 x1 y1 s

end Sys2Proof.Machine
end

