-- ==== Sys2Proof/Machine/Step.lean ====
section
/-! DEFINITION. One step of the machine: the next thing the outside does, and what the block does about it
(00_scope.md R5, R6, R8; notes/assumptions/1.md, 2.md). -/

namespace Sys2Proof.Machine

/-- One step. An offered command is accepted when BUSY = 0 and runs whole (R8); a reserved opcode does nothing (30_encoding.md
R64); a clock cycle moves the pins on; a foreign byte reaches the controller. -/
def step (s : State) : Host.Outcome State Fault Refusal :=
  match s.inputs with
  | [] => .next (waitForInput s)
  | .command w :: rest =>
    if s.busy then .next (heldCommand w s)
    else
      match decode w with
      | .instr i => exec i (s.setInputs rest)
      | .reserved op => .next (reservedCommand op (s.setInputs rest))
  | .clock p :: rest => .next (cycle p (s.setInputs rest))
  | .foreign e :: rest => foreignByte e (s.setInputs rest)

/-- The command word `w`, numbered as spec/opcode_table.json numbers it, placed where the next step takes its command:
offered by the host, with the block idle (an operation under way would be run on first). The bits from `nbits` on
are 0 (notes/assumptions/17.md). -/
def State.withFetchWord (s : State) (nbits w : Nat) : State :=
  { s with running := none, inputs := .command (BitVec.ofNat 40 (w % 2 ^ nbits)) :: s.inputs }

end Sys2Proof.Machine
end

