-- ==== Sys2Proof/Safety.lean ====
section
/-! DEFINITION. The terms statements are made in: what a command asks for and sends, written from the spec's rules apart
from the machine (00_scope.md R8, R14), and the invariant of every state a run reaches. -/

namespace Sys2Proof.Safety

open Sys2Proof.Machine

/-- The accepted requests: those in range (00_scope.md R14 (b), R16). -/
def accepted (rs : List Request) : List Request := rs.filter fun r => inRange r.1 r.2

/-- The requests of an outline: its four edges (43_rectangles.md R115). -/
def rectRequests (l t r b : Nat) : List Request :=
  lineRequests l t r t ++ lineRequests l b r b ++ lineRequests l t l b ++ lineRequests r t r b

/-- The requests of a fill, column after column (43_rectangles.md R120). -/
def fillRequests (includeX1 : Bool) (x0 y0 x1 y1 : Nat) : List Request :=
  (fillColumns includeX1 x0 x1).flatMap fun x => lineRequests x y0 x y1

/-- The pixel requests of a command in order (R14 (b)). -/
def requestsOf : Instr → List Request
  | .clear => []
  | .setpixel x y => [(x, y)]
  | .drawline x1 y1 x2 y2 => lineRequests x1 y1 x2 y2
  | .drawrect l t r b => rectRequests l t r b
  | .fillrect x0 y0 x1 y1 => fillRequests Config.fillIncludeX1 x0 y0 x1 y1

/-- ACC after an accepted request: `(x = PREVX ? ACC : 0) | (1 << (y mod 8))` (41_pixel_write.md R91). -/
def accAfter (c : Cache) (x y : Nat) : Byte :=
  (if x = c.prevx.toNat then c.acc else 0#8) ||| (1#8 <<< (y % 8))

/-- The three events of an accepted request, byte by byte (R91; column byte first by the spec's decision D8). -/
def pixelEvents (c : Cache) (x y : Nat) : List TxEvent :=
  [ { mode := .command, value := 0x80#8 ||| BitVec.ofNat 8 x },
    { mode := .command, value := 0x40#8 ||| BitVec.ofNat 8 (y / 8) },
    { mode := .data, value := accAfter c x y } ]

/-- What a list of pixel requests sends and what it leaves in the cache (R91, R93). -/
def drawEffect : List Request → Cache → List TxEvent × Cache
  | [], c => ([], c)
  | (x, y) :: rs, c =>
    if x < 84 ∧ y < 48 then
      let after := drawEffect rs { acc := accAfter c x y, prevx := BitVec.ofNat 8 x }
      (pixelEvents c x y ++ after.1, after.2)
    else drawEffect rs c

/-- The events of CLEAR: the position (0, 0) and 504 zero bytes (44_clear.md R130). -/
def clearEvents : List TxEvent :=
  { mode := .command, value := 0x80#8 } :: { mode := .command, value := 0x40#8 } ::
    List.replicate 504 { mode := .data, value := 0x00#8 }

/-- The function Exec of 00_scope.md R8: from a command and the cache, the events and the cache after it. -/
def execEffect (i : Instr) (c : Cache) : List TxEvent × Cache :=
  match i with
  | .clear => (clearEvents, c)
  | i => drawEffect (requestsOf i) c

/-- Exec on a command word: a reserved opcode has no event and no effect (30_encoding.md R64). -/
def wordEffect (w : CmdWord) (c : Cache) : List TxEvent × Cache :=
  match decode w with
  | .instr i => execEffect i c
  | .reserved _ => ([], c)

/-- The concatenated events of a list of command words, and the cache after them: each word has its effect from the cache
the words before it leave (00_scope.md R8). -/
def programEffect : List CmdWord → Cache → List TxEvent × Cache
  | [], c => ([], c)
  | w :: ws, c =>
    let first := wordEffect w c
    let rest := programEffect ws first.2
    (first.1 ++ rest.1, rest.2)

/-- The machine with a program offered: a list of command words, in order (10_state.md R28). -/
def withProgram (s : State) (ws : List CmdWord) : State := { s with inputs := ws.map .command }

/-- The most transport events a command sends (60_exceptions.md R140). -/
def maxEvents : Instr → Nat
  | .clear => 506
  | .setpixel _ _ => 3
  | .drawline _ _ _ _ => 252
  | .drawrect _ _ _ _ => 792
  | .fillrect _ _ _ _ => 12096

/-- The number of minor steps after `k` driving steps, in closed form (42_line.md R104). -/
def minorSteps (minorNeg : Bool) (dmaj dmin k : Nat) : Nat :=
  if dmaj = 0 then 0
  else if minorNeg then (2 * k * dmin + dmaj - 1) / (2 * dmaj)
  else (2 * k * dmin + dmaj) / (2 * dmaj)

/-- `n` unit steps from `u` toward `v` (42_line.md R102). -/
def toward (u v n : Nat) : Nat := if v < u then u - n else u + n

/-- The magnitude of a difference, as the spec writes it (42_line.md R101). -/
def gap (u v : Nat) : Nat := ((v : Int) - (u : Int)).natAbs

/-- The `k`-th request of a line, counted from 0, in closed form (42_line.md R104). -/
def linePoint (x1 y1 x2 y2 k : Nat) : Request :=
  let dx := gap x1 x2
  let dy := gap y1 y2
  if dy ≤ dx then (toward x1 x2 k, toward y1 y2 (minorSteps (decide (y2 < y1)) dx dy k))
  else (toward x1 x2 (minorSteps (decide (x2 < x1)) dy dx k), toward y1 y2 k)

/-- The requests of the current x-run, latest first: the last accepted request and those before it with no accepted
request of another x between (00_scope.md R16). -/
def currentRun (rs : List Request) : List Request :=
  match (accepted rs).reverse with
  | [] => []
  | r :: before => r :: before.takeWhile fun q => q.1 == r.1

/-- The cache is what the pixel requests so far make of it (10_state.md R22, R23): ACC the OR of the bits of the current
x-run, PREVX the x of the last accepted request; the reset values when none has been accepted. -/
def CacheOfRequests (s : State) : Prop :=
  s.cache.acc = (currentRun s.requests).foldr (fun r a => a ||| (1#8 <<< (r.2 % 8))) 0x00#8 ∧
    s.cache.prevx = ((accepted s.requests).getLast?.map fun r => BitVec.ofNat 8 r.1).getD 0x00#8

/-- The running operation is in order: it offers an event; what it has sent has put the cursor where its data byte is
meant to go (40_addressing.md R83); ACC has the bit of the pixel being written (41_pixel_write.md R95). -/
def OperationOk (r : Running) (s : State) : Prop :=
  match r.engine with
  | .clear n =>
    match r.txphase with
    | .column => n = 0#9
    | .bank => n = 0#9 ∧ s.controller.cx = 0
    | .data => n.toNat < Config.cells ∧ cellKey s.controller.cx s.controller.cy = n.toNat
    | .done => False
  | .draw d =>
    ∃ p, translate d.request.1 d.request.2 = some p ∧ s.cache.acc.getLsbD p.bit.val = true ∧
      match r.txphase with
      | .column => True
      | .bank => s.controller.cx = p.column
      | .data => s.controller.cx = p.column ∧ s.controller.cy = p.bank
      | .done => False

/-- The invariant of every state a run reaches: display memory is in its canonical form with cells that exist
(20_memory.md R40); PREVX lies in [0, WIDTH) (10_state.md R22); a running operation is in order. -/
structure Inv (s : State) : Prop where
  memory : s.controller.ddram.wf = true
  prevx : s.cache.prevx.toNat < Config.width
  operation : ∀ r, s.running = some r → OperationOk r s

/-- The pins say: no reset and no command offered. Such cycles only let the running operation go on. -/
def quiet (ps : List Pins) : Prop := ∀ p ∈ ps, p.rst = false ∧ p.cmdValid = false

/-- In how many of the cycles the transport is ready. -/
def readyCount (ps : List Pins) : Nat := (ps.filter fun p => p.txReady).length

/-- What a state has sent since an earlier one. -/
def newEvents (s t : State) : List TxEvent := t.trace.drop s.trace.length

/-- The values of the data bytes among events. -/
def dataBytes (es : List TxEvent) : List Byte := (es.filter fun e => e.mode == .data).map (·.value)

end Sys2Proof.Safety
end

