-- ==== Sys2Proof/Certificates/Slice0/Obligations.lean ====
section
/-! DEFINITION. The statements for the provers, each a rule of the spec or what follows from several. -/

open Sys2Proof Sys2Proof.Machine Sys2Proof.Safety

/-! ### Encoding -/

/-- 30_encoding.md R63, R60 (opcode values: the spec's decisions D2, D3): words of every command written out from the
fields, with a reserved word beside them, and what they decode to (95_test_vectors.md V2.12, V6.2, V7). -/
def Obligations.WordsWrittenOutDecodeToTheirCommands : Prop :=
  decode 0x01DEADBEEF#40 = .instr .clear ∧
  decode 0x020709ABCD#40 = .instr (.setpixel 7 9) ∧
  decode 0x03502E5A32#40 = .instr (.drawline 80 46 90 50) ∧
  decode 0x0400000A05#40 = .instr (.drawrect 0 0 10 5) ∧
  decode 0x050202040C#40 = .instr (.fillrect 2 2 4 12) ∧
  decode 0x0601020304#40 = .reserved 0x06#8

/-- 30_encoding.md R60, R61, R63: encoding a command whose operands fit their fields and decoding the word gives the
command back, every operand at every value. -/
def Obligations.DecodeOfEncodeGivesTheCommandBack : Prop :=
  ∀ i : Instr, WellFormed i → decode (encode i) = .instr i

/-- 30_encoding.md R61, R65 (the spec's decision D5): what a word decodes to is well-formed, and encoding it gives the
word back but for the fields the command ignores, which hold 0 in the canonical word. -/
def Obligations.EncodeOfDecodeClearsOnlyIgnoredFields : Prop :=
  ∀ (w : CmdWord) (i : Instr), decode w = .instr i →
    WellFormed i ∧
    encode i = match i with
      | .clear => w &&& 0xFF00000000#40
      | .setpixel _ _ => w &&& 0xFFFFFF0000#40
      | .drawline _ _ _ _ => w
      | .drawrect _ _ _ _ => w
      | .fillrect _ _ _ _ => w

/-- 30_encoding.md R63, R64 (the spec's decisions D3, D4): a word is reserved exactly when the number in its bits
[39:32] is 0 or at least 6, and then the decoder names that opcode. -/
def Obligations.ReservedOpcodesAreZeroAndSixUpwards : Prop :=
  ∀ w : CmdWord,
    ((∃ i, decode w = .instr i) ↔ 1 ≤ w.toNat / 2 ^ 32 ∧ w.toNat / 2 ^ 32 ≤ 5) ∧
    (w.toNat / 2 ^ 32 = 0 ∨ 6 ≤ w.toNat / 2 ^ 32 → ∃ op : Byte, op.toNat = w.toNat / 2 ^ 32 ∧ decode w = .reserved op)

/-- 20_memory.md R56 (the spec's decision D21): a command word carried byte by byte has the opcode byte (bits [39:32])
first and bits [7:0] last, and the byte-wise decoder reads from it what the decoder reads from the word, leaving the
bytes after it. -/
def Obligations.SerialisedWordDecodesAsTheWord : Prop :=
  ∀ (w : CmdWord) (rest : List Byte),
    decodeBytes (bytesOfWord w ++ rest) = some (decode w, rest) ∧
    (bytesOfWord w).map BitVec.toNat =
      [w.toNat / 2 ^ 32, w.toNat / 2 ^ 24 % 256, w.toNat / 2 ^ 16 % 256, w.toNat / 2 ^ 8 % 256, w.toNat % 256]

/-- 30_encoding.md R71 (the spec's decision D23): each command is named by its mnemonic and by the source's procedure
name, and the rule's example assembles to the word it gives. -/
def Obligations.AssemblerNamesEveryCommand : Prop :=
  (∀ i : Instr, WellFormed i → commandNamed (mnemonicOf i) (operandsOf i) = some i ∧
    commandNamed (aliasOf i) (operandsOf i) = some i) ∧
  assemble "DRAWLINE 0, 0, 10, 0" = some 0x0300000A00#40 ∧
  assemble "setPixel 0x53, 47" = some 0x02532F0000#40 ∧
  assemble "CLEAR" = some 0x0100000000#40

/-- 30_encoding.md R67, R68: the set-column byte is 0x80 | column with bit 7 set and the column in bits [6:0], 0x80 to
0xD3; the set-bank byte is 0x40 | bank with bits [7:6] = 01, [5:3] = 000 and the bank in bits [2:0], 0x40 to 0x45; both
are COMMAND events. -/
def Obligations.PositioningBytesCarryColumnAndBank : Prop :=
  (∀ c : Fin 84, ∃ v : Byte, (Send.column c).event = { mode := .command, value := v } ∧
    v = 0x80#8 ||| BitVec.ofNat 8 c.val ∧ v.getLsbD 7 = true ∧ (v.extractLsb' 0 7).toNat = c.val ∧
    0x80 ≤ v.toNat ∧ v.toNat ≤ 0xD3) ∧
  (∀ b : Fin 6, ∃ v : Byte, (Send.bank b).event = { mode := .command, value := v } ∧
    v = 0x40#8 ||| BitVec.ofNat 8 b.val ∧ v.extractLsb' 6 2 = 0b01#2 ∧ v.extractLsb' 3 3 = 0b000#3 ∧
    (v.extractLsb' 0 3).toNat = b.val ∧ 0x40 ≤ v.toNat ∧ v.toNat ≤ 0x45)

/-! ### Step -/

/-- The step's convention, the model's own choice (notes/assumptions/1.md, DEDUCED: one step runs a whole command;
notes/assumptions/2.md, DESIGN CHOICE: the host's words come from a list of inputs), which 00_scope.md R8's function Exec allows: when the
block is idle and the next input is a word that decodes to a command, a step is exec of that command, with the word taken from
the inputs. -/
def Obligations.StepRunsTheDecodedCommand : Prop :=
  ∀ (s : State) (w : CmdWord) (rest : List Input) (i : Instr),
    s.busy = false → s.inputs = .command w :: rest → decode w = .instr i →
    step s = exec i { s with inputs := rest }

/-- The model's own convention (notes/assumptions/17.md): a word placed by withFetchWord is the next the step runs, from
every state; the decoder on table-numbered words reads the same command. -/
def Obligations.FetchWordIsTheNextCommandToRun : Prop :=
  ∀ (s : State) (w : CmdWord) (i : Instr), decode w = .instr i →
    decodeTableWord 40 w.toNat = some i ∧
    step (s.withFetchWord 40 w.toNat) = exec i { s with running := none }

/-- 30_encoding.md R64 (the spec's decision D4): a command with a reserved opcode is accepted and completes with no event
and no change, as a step (taking the word from the inputs is the step's convention: notes/assumptions/1.md, 2.md) and in one
clock cycle (that it takes no more: notes/assumptions/9.md). -/
def Obligations.ReservedCommandCompletesWithoutEffect : Prop :=
  ∀ (s : State) (w : CmdWord) (rest : List Input),
    s.busy = false → w.toNat / 2 ^ 32 = 0 ∨ 6 ≤ w.toNat / 2 ^ 32 →
    (s.inputs = .command w :: rest → step s = .next { s with inputs := rest }) ∧
    (∀ p : Pins, p.rst = false → p.cmdValid = true → p.cmd = w → cycle p s = s)

/-- 70_reset_and_hazards.md R162: after reset the block waits, idle, for the first command, and any of the five commands may
be the first: offered after reset it runs, from the state after reset. (How a step waits and takes a word is the model's
convention: notes/assumptions/1.md, 2.md, 3.md.) -/
def Obligations.AfterResetAnyCommandMayBeTheFirst : Prop :=
  State.reset.busy = false ∧ step State.reset = .next State.reset ∧
  ∀ i : Instr, WellFormed i →
    ∃ t, step { State.reset with inputs := [.command (encode i)] } = .next t ∧ exec i State.reset = .next t

/-- 60_exceptions.md R140, R143: no step answers a fault, and a step is refused only when another user of the transport
sends a byte while BUSY = 1 or one the controller's model does not describe (U9, U4; notes/assumptions/13.md). -/
def Obligations.OnlyForeignBytesAreRefused : Prop :=
  ∀ s : State,
    (∃ t, step s = .next t) ∨
    (∃ e rest, s.inputs = .foreign e :: rest ∧
      ((s.busy = true ∧ step s = .refused .foreignWhileBusy) ∨
        (s.busy = false ∧ s.controller.receive e = none ∧ step s = .refused (.controllerByteOutsideModel e))))

/-! ### SETPIXEL -/

/-- 41_pixel_write.md R90, R91, 20_memory.md R46 to R48 (order of the positioning bytes D8, cache key D30, cursor wrap D20:
the spec's decisions): SETPIXEL in range, whole: ACC, PREVX, the three events, the cell that is replaced, every other cell
as before, the cursor after the data byte, and nothing else. -/
def Obligations.SetpixelInRangeSendsOneByte : Prop :=
  ∀ (s : State) (x y : Nat), x < 84 → y < 48 →
    ∃ t, exec (.setpixel x y) s = .next t ∧
      t.cache.acc = (if x = s.cache.prevx.toNat then s.cache.acc else 0#8) ||| (1#8 <<< (y % 8)) ∧
      t.cache.prevx = BitVec.ofNat 8 x ∧
      t.trace = s.trace ++
        [ { mode := .command, value := 0x80#8 ||| BitVec.ofNat 8 x },
          { mode := .command, value := 0x40#8 ||| BitVec.ofNat 8 (y / 8) },
          { mode := .data, value := t.cache.acc } ] ∧
      t.requests = s.requests ++ [(x, y)] ∧ t.running = s.running ∧ t.inputs = s.inputs ∧
      (∀ a : Nat, Memory.read t.controller.ddram a =
        if a = y / 8 * 84 + x then some t.cache.acc else Memory.read s.controller.ddram a) ∧
      (if x < 83 then t.controller.cx.val = x + 1 ∧ t.controller.cy.val = y / 8
        else t.controller.cx.val = 0 ∧ t.controller.cy.val = (y / 8 + 1) % 6)

/-- 20_memory.md R43: a translation that gives none is not a fault: the pixel request is dropped; no event is sent, no
state of the block or of the controller changes, nothing is clamped. (The request stands in the observer's list, R14 (b).) -/
def Obligations.OutOfRangeSetpixelIsDropped : Prop :=
  ∀ (s : State) (x y : Nat), ¬(x < 84 ∧ y < 48) →
    translate x y = none ∧
    exec (.setpixel x y) s = .next { s with requests := s.requests ++ [(x, y)] }

/-- 41_pixel_write.md R92, R96: a request is in range exactly when x ≤ 83 and y ≤ 47; then SETPIXEL sends one positioning
pair (the set-column and the set-bank command, whatever their order) and one data byte, never fewer; otherwise nothing. -/
def Obligations.InRangeSetpixelSendsThreeEventsOthersNone : Prop :=
  ∀ (s : State) (x y : Nat), ∃ t, exec (.setpixel x y) s = .next t ∧
    (x ≤ 83 ∧ y ≤ 47 → ∃ p q d : TxEvent, t.trace = s.trace ++ [p, q, d] ∧ d.mode = .data ∧
      List.Perm [p, q]
        [ { mode := .command, value := 0x80#8 ||| BitVec.ofNat 8 x },
          { mode := .command, value := 0x40#8 ||| BitVec.ofNat 8 (y / 8) } ]) ∧
    (¬(x ≤ 83 ∧ y ≤ 47) → t.trace = s.trace)

/-- 41_pixel_write.md R95: the data byte has the requested bit set and is never 0; it is ACC; in the target cell every pixel
whose bit is 0 in it is off afterwards (and every other on), and the pixels of every other cell are as before. -/
def Obligations.DataByteSetsItsBitAndReplacesTheCell : Prop :=
  ∀ (s : State) (x y : Nat), x < 84 → y < 48 →
    ∃ t v, exec (.setpixel x y) s = .next t ∧
      t.trace.getLast? = some { mode := .data, value := v } ∧ v = t.cache.acc ∧
      v.getLsbD (y % 8) = true ∧ v ≠ 0#8 ∧
      (∀ y', y' < 48 → y' / 8 = y / 8 → t.controller.lit x y' = some (v.getLsbD (y' % 8))) ∧
      (∀ x' y', x' ≠ x ∨ y' / 8 ≠ y / 8 → t.controller.lit x' y' = s.controller.lit x' y')

/-- 41_pixel_write.md R97: two identical consecutive accepted requests send the same three events twice and leave the display
as after the first; not so non-consecutive ones: Pixel(5, 3), Pixel(6, 3), Pixel(5, 4) leaves cell (5, bank 0) = 0x10 and
pixel (5, 3) off, from every state. -/
def Obligations.ImmediateRepetitionIsIdempotent : Prop :=
  (∀ (s : State) (x y : Nat), x < 84 → y < 48 →
    ∃ t u es, exec (.setpixel x y) s = .next t ∧ exec (.setpixel x y) t = .next u ∧ es.length = 3 ∧
      t.trace = s.trace ++ es ∧ u.trace = t.trace ++ es ∧ u.cache = t.cache ∧ u.controller = t.controller) ∧
  (∀ s : State, ∃ t u v, exec (.setpixel 5 3) s = .next t ∧ exec (.setpixel 6 3) t = .next u ∧
    exec (.setpixel 5 4) u = .next v ∧ Memory.read v.controller.ddram 5 = some 0x10#8 ∧ v.controller.lit 5 3 = some false)

/-- 41_pixel_write.md R94, 70_reset_and_hazards.md R171 (the spec's decision D30): within one x-run ACC carries its bits from
one bank into the next: a second request at the same x sends the first one's bits too, to its own cell. -/
def Obligations.SameColumnCarriesBitsAcrossBanks : Prop :=
  ∀ (s : State) (x y₁ y₂ : Nat), x < 84 → y₁ < 48 → y₂ < 48 →
    ∃ t u, exec (.setpixel x y₁) s = .next t ∧ exec (.setpixel x y₂) t = .next u ∧
      u.cache.acc = t.cache.acc ||| (1#8 <<< (y₂ % 8)) ∧
      Memory.read u.controller.ddram (y₂ / 8 * 84 + x) = some u.cache.acc ∧
      u.controller.lit x (y₂ / 8 * 8 + y₁ % 8) = some true

/-! ### Every command -/

/-- 00_scope.md R8, 45_command_summary.md R135 (with the spec's decisions named in notes/assumptions/20.md): every command
completes, with exactly the events and the cache its rule gives, its requests noted in order, the controller moved by those
events, and no other field changed. -/
def Obligations.EveryCommandDoesItsExec : Prop :=
  ∀ (i : Instr) (s : State), ∃ t, exec i s = .next t ∧
    t.trace = s.trace ++ (execEffect i s.cache).1 ∧ t.cache = (execEffect i s.cache).2 ∧
    s.controller.receiveAll (execEffect i s.cache).1 = some t.controller ∧
    t.requests = s.requests ++ requestsOf i ∧ t.running = s.running ∧ t.inputs = s.inputs

/-- 00_scope.md R8, with the function Exec the operation rules define, wordEffect (it rests on the spec's decisions D8, D10, D11,
D14, D15 and D30, and on D2 to D4 for what a word means): commands are atomic: none is accepted while one is under way; and from
every idle state, so from reset, what a sequence of command words sends is the concatenation of the event lists Exec gives, each
from the cache the words before it leave, and the cache after is the one Exec gives. (One word a step, taken from the inputs: the
step's convention, notes/assumptions/1.md, 2.md.) -/
def Obligations.ProgramsSendTheConcatenationOfTheirEvents : Prop :=
  (∀ (s : State) (p : Pins) (w : CmdWord), s.busy = true →
    cycle { p with cmdValid := true, cmd := w } s = cycle { p with cmdValid := false } s) ∧
  ∀ (s : State) (ws : List CmdWord), s.busy = false →
    ∃ t, Sys2Proof.core.run ws.length (withProgram s ws) = .next t ∧
      t.trace = s.trace ++ (programEffect ws s.cache).1 ∧ t.cache = (programEffect ws s.cache).2 ∧
      t.busy = false ∧ t.inputs = []

/-- 20_memory.md R45, R50: the block never reads display memory nor the cursor: with any other controller state a step has
the same outcome, but for the controller. -/
def Obligations.BlockNeverReadsTheController : Prop :=
  ∀ (s : State) (c : Controller),
    match step s, step { s with controller := c } with
    | .next t, .next u => { t with controller := u.controller } = u
    | .refused r, .refused q => r = q
    | .fault _, _ => False
    | _, .fault _ => False
    | .next _, .refused _ => False
    | .refused _, .next _ => False

/-- 20_memory.md R50, R57: no command depends on where the cursor was: the display after it is the same from any cursor. -/
def Obligations.DisplayDoesNotDependOnTheCursorBefore : Prop :=
  ∀ (i : Instr) (s : State) (cx : Fin 84) (cy : Fin 6),
    ∃ t u, exec i s = .next t ∧
      exec i { s with controller := { s.controller with cx := cx, cy := cy } } = .next u ∧
      u.controller.ddram = t.controller.ddram

/-- 60_exceptions.md R140: every command completes with at most the number of events the rule gives, exactly 506 for CLEAR; a
command whose operands fit its fields makes at most 256, 1024 or 65280 requests; DRAWRECT 0, 0, 83, 47 and FILLRECT 0, 0, 84,
47 reach their bounds. -/
def Obligations.EveryCommandIsBounded : Prop :=
  (∀ (i : Instr) (s : State), ∃ t, exec i s = .next t ∧ t.trace.length ≤ s.trace.length + maxEvents i ∧
    (i = .clear → t.trace.length = s.trace.length + 506) ∧
    (WellFormed i → (requestsOf i).length ≤ match i with
      | .clear => 0
      | .setpixel _ _ => 1
      | .drawline _ _ _ _ => 256
      | .drawrect _ _ _ _ => 1024
      | .fillrect _ _ _ _ => 65280)) ∧
  3 * (accepted (requestsOf (.drawrect 0 0 83 47))).length = maxEvents (.drawrect 0 0 83 47) ∧
  3 * (accepted (requestsOf (.fillrect 0 0 84 47))).length = maxEvents (.fillrect 0 0 84 47)

/-- 42_line.md R110, 41_pixel_write.md R93, 70_reset_and_hazards.md R173: dropped requests change nothing: a command that draws
does what its accepted requests alone do, but for the observer's list of requests. So they end no x-run. -/
def Obligations.DroppedRequestsHaveNoEffect : Prop :=
  ∀ (i : Instr) (s : State), i ≠ .clear →
    ∃ t, exec i s = .next t ∧
      { t with requests := s.requests } = { drawAll s (accepted (requestsOf i)) with requests := s.requests } ∧
      (accepted (requestsOf i) = [] → { t with requests := s.requests } = s)

/-- 10_state.md R21, R22, 20_memory.md R46: the frame of every command. Memory: a cell that none of the command's accepted
requests translates to keeps its byte (CLEAR, which stores to the 504 cells, keeps what is outside them). ACC and PREVX: kept
when no request is accepted (so by CLEAR); else PREVX is the x of the last accepted request. A running operation and the
inputs: kept. -/
def Obligations.CommandsChangeOnlyWhatTheyMay : Prop :=
  ∀ (i : Instr) (s : State), ∃ t, exec i s = .next t ∧
    (∀ a : Nat, (i = .clear → 504 ≤ a) →
      (∀ r ∈ requestsOf i, ∀ p, translate r.1 r.2 = some p → a ≠ cellKey p.column p.bank) →
      Memory.read t.controller.ddram a = Memory.read s.controller.ddram a) ∧
    (accepted (requestsOf i) = [] → t.cache = s.cache) ∧
    (∀ r, (accepted (requestsOf i)).getLast? = some r → t.cache.prevx.toNat = r.1) ∧
    t.running = s.running ∧ t.inputs = s.inputs

/-- 10_state.md R34: with ACC = 0 the value of PREVX cannot be observed: every command sends the same events and leaves the
same ACC and the same controller whatever PREVX was. -/
def Obligations.PrevxIsUnobservableWhileAccIsZero : Prop :=
  ∀ (i : Instr) (s : State) (v : Byte), s.cache.acc = 0#8 →
    ∃ t u, exec i s = .next t ∧ exec i { s with cache := { s.cache with prevx := v } } = .next u ∧
      u.trace = t.trace ∧ u.controller = t.controller ∧ u.cache.acc = t.cache.acc ∧ u.requests = t.requests ∧
      (accepted (requestsOf i) ≠ [] → u.cache = t.cache)

/-- 10_state.md R23, 00_scope.md R16: between commands ACC is the OR of the bits of the current x-run and PREVX its x, the
reset values when nothing has been accepted: it holds at reset and every command keeps it. -/
def Obligations.CacheIsTheCurrentRunOfRequests : Prop :=
  CacheOfRequests State.reset ∧
  ∀ (i : Instr) (s : State), CacheOfRequests s → ∃ t, exec i s = .next t ∧ CacheOfRequests t

/-! ### DRAWLINE -/

/-- 42_line.md R101 to R104 (ties: the spec's decision D11): DRAWLINE completes, and its requests are those of the closed form:
the k-th has the driving coordinate k steps on and the minor coordinate of the nearest pixel, ties to the larger one; the
first is (x1, y1), the last (x2, y2); the minor steps grow by at most one. -/
def Obligations.LineRequestsAreTheNearestPixels : Prop :=
  ∀ (x1 y1 x2 y2 : Nat) (s : State),
    let dmaj := max (gap x1 x2) (gap y1 y2)
    let dmin := min (gap x1 x2) (gap y1 y2)
    (∃ t, exec (.drawline x1 y1 x2 y2) s = .next t ∧
      t.requests = s.requests ++ (List.range (dmaj + 1)).map (linePoint x1 y1 x2 y2)) ∧
    linePoint x1 y1 x2 y2 0 = (x1, y1) ∧ linePoint x1 y1 x2 y2 dmaj = (x2, y2) ∧
    ∀ (neg : Bool) (k : Nat), k < dmaj →
      minorSteps neg dmaj dmin k ≤ minorSteps neg dmaj dmin (k + 1) ∧
      minorSteps neg dmaj dmin (k + 1) ≤ minorSteps neg dmaj dmin k + 1

/-- 42_line.md R105: DRAWLINE makes exactly max(|Δx|, |Δy|) + 1 pixel requests, in range or not, never fewer; the driving
coordinate takes each value from its start to its end exactly once, and no two requests are equal. -/
def Obligations.LineMakesMaxPlusOneRequests : Prop :=
  ∀ (x1 y1 x2 y2 : Nat) (s : State), ∃ t rs, exec (.drawline x1 y1 x2 y2) s = .next t ∧
    t.requests = s.requests ++ rs ∧ rs.length = max (gap x1 x2) (gap y1 y2) + 1 ∧ rs.Nodup ∧
    (gap y1 y2 ≤ gap x1 x2 → rs.map Prod.fst = (List.range (gap x1 x2 + 1)).map (toward x1 x2)) ∧
    (gap x1 x2 < gap y1 y2 → rs.map Prod.snd = (List.range (gap y1 y2 + 1)).map (toward y1 y2))

/-- 42_line.md R106: DRAWLINE x, y, x, y makes one request, (x, y), and does exactly what SETPIXEL x, y does; when (x, y) is
out of range it sends nothing. -/
def Obligations.DegenerateLineIsOnePixel : Prop :=
  ∀ (x y : Nat) (s : State), ∃ t, exec (.drawline x y x y) s = .next t ∧ exec (.setpixel x y) s = .next t ∧
    t.requests = s.requests ++ [(x, y)] ∧ (¬(x < 84 ∧ y < 48) → t.trace = s.trace)

/-- 42_line.md R107, R111, 70_reset_and_hazards.md R174 (ties: the spec's decision D11): exchanging the endpoints reverses the
requests, so both directions cover the same pixels; but the display can differ: down from (0, 0) to (0, 10) lights (0, 15), up it
does not light it (whatever the display held there: cell (0, bank 1) is replaced). -/
def Obligations.LineIsSymmetricInItsRequests : Prop :=
  (∀ x1 y1 x2 y2 : Nat, lineRequests x2 y2 x1 y1 = (lineRequests x1 y1 x2 y2).reverse) ∧
  (∃ t u, exec (.drawline 0 0 0 10) State.reset = .next t ∧ exec (.drawline 0 10 0 0) State.reset = .next u ∧
    t.controller.lit 0 15 = some true ∧ u.controller.lit 0 15 = some false)

/-- 42_line.md R108: with dy = 0 the requests run along y = y1 from x1 to x2, with dx = 0 along x = x1 from y1 to y2. -/
def Obligations.AxisAlignedLinesAreStraight : Prop :=
  ∀ (u v w : Nat) (s : State),
    (∃ t, exec (.drawline u w v w) s = .next t ∧
      t.requests = s.requests ++ (List.range (gap u v + 1)).map fun k => (toward u v k, w)) ∧
    (∃ t, exec (.drawline w u w v) s = .next t ∧
      t.requests = s.requests ++ (List.range (gap u v + 1)).map fun k => (w, toward u v k))

/-- 42_line.md R109, 45_command_summary.md R136: with operands in [0, 255] nothing overflows: after every iteration the pixel
lies between the endpoints and e in [−254, 254]; e + 2·dmin never exceeds 762, 2·dmaj never 510. -/
def Obligations.LineArithmeticStaysInRange : Prop :=
  ∀ (x1 y1 x2 y2 k : Nat), x1 ≤ 255 → y1 ≤ 255 → x2 ≤ 255 → y2 ≤ 255 →
    let p := lineParams x1 y1 x2 y2
    let q := (p.advance)^[k] { x := x1, y := y1, e := 0 }
    k ≤ p.dmaj →
      min x1 x2 ≤ q.x ∧ q.x ≤ max x1 x2 ∧ min y1 y2 ≤ q.y ∧ q.y ≤ max y1 y2 ∧
      -254 ≤ q.e ∧ q.e ≤ 254 ∧ q.e + 2 * (p.dmin : Int) ≤ 762 ∧ 2 * p.dmaj ≤ 510 ∧ p.dmin ≤ p.dmaj

/-- 42_line.md R110: the rasterizer does not clip: a request off the surface is dropped on its own and the iteration goes on;
DRAWLINE 80, 46, 90, 50 makes 11 requests and draws (80,46), (81,46), (82,47), (83,47) only; a line wholly off the surface
sends nothing but still makes all its requests, and leaves the cache. -/
def Obligations.LineClipsPixelByPixel : Prop :=
  (∀ (x1 y1 x2 y2 : Nat) (s : State), ∃ t, exec (.drawline x1 y1 x2 y2) s = .next t ∧
    t.requests = s.requests ++ lineRequests x1 y1 x2 y2 ∧
    t.trace = (drawAll s (accepted (lineRequests x1 y1 x2 y2))).trace ∧
    t.cache = (drawAll s (accepted (lineRequests x1 y1 x2 y2))).cache ∧
    t.controller = (drawAll s (accepted (lineRequests x1 y1 x2 y2))).controller ∧
    ((∀ r ∈ lineRequests x1 y1 x2 y2, ¬(r.1 < 84 ∧ r.2 < 48)) → t.trace = s.trace ∧ t.cache = s.cache)) ∧
  (lineRequests 80 46 90 50).length = 11 ∧
  accepted (lineRequests 80 46 90 50) = [(80, 46), (81, 46), (82, 47), (83, 47)]

/-- 42_line.md R111: in an x-major line with dmaj > 0 each data byte has exactly one bit set, that of its own row, when the first
accepted request does not continue the x-run before the line. -/
def Obligations.XMajorLineSendsSingleBits : Prop :=
  ∀ (x1 y1 x2 y2 : Nat) (s : State), gap y1 y2 ≤ gap x1 x2 → 0 < gap x1 x2 →
    (∀ r, (accepted (lineRequests x1 y1 x2 y2)).head? = some r → r.1 ≠ s.cache.prevx.toNat) →
    ∃ t, exec (.drawline x1 y1 x2 y2) s = .next t ∧
      dataBytes (newEvents s t) = (accepted (lineRequests x1 y1 x2 y2)).map fun r => 1#8 <<< (r.2 % 8)

/-! ### DRAWRECT and FILLRECT -/

/-- 43_rectangles.md R115, R117 (order of the edges: the spec's decision D14): DRAWRECT completes, doing its four lines one
after the other; it makes 2w + 2h + 4 requests; when w, h > 0 each corner is requested twice, every other pixel of the perimeter
once, no other pixel, 2w + 2h distinct pixels in all. -/
def Obligations.OutlineRequestsThePerimeter : Prop :=
  ∀ (l t r b : Nat) (s : State),
    (∃ s1 s2 s3 s4, exec (.drawline l t r t) s = .next s1 ∧ exec (.drawline l b r b) s1 = .next s2 ∧
      exec (.drawline l t l b) s2 = .next s3 ∧ exec (.drawline r t r b) s3 = .next s4 ∧
      exec (.drawrect l t r b) s = .next s4 ∧
      s4.requests = s.requests ++ requestsOf (.drawrect l t r b)) ∧
    (requestsOf (.drawrect l t r b)).length = 2 * gap l r + 2 * gap t b + 4 ∧
    (l ≠ r → t ≠ b →
      (requestsOf (.drawrect l t r b)).dedup.length = 2 * gap l r + 2 * gap t b ∧
      ∀ x y, (requestsOf (.drawrect l t r b)).count (x, y) =
        if (x = l ∨ x = r) ∧ (y = t ∨ y = b) then 2
        else if ((x = l ∨ x = r) ∧ min t b ≤ y ∧ y ≤ max t b) ∨ ((y = t ∨ y = b) ∧ min l r ≤ x ∧ x ≤ max l r) then 1
        else 0)

/-- 43_rectangles.md R118: degenerate outlines make all four lines: one pixel four times; a horizontal line twice and its two
ends; two ends and a vertical line twice. Exchanging left and right, or top and bottom, gives the same set of requests. -/
def Obligations.DegenerateAndReversedOutlines : Prop :=
  ∀ l t r b : Nat,
    requestsOf (.drawrect l t l t) = [(l, t), (l, t), (l, t), (l, t)] ∧
    requestsOf (.drawrect l t r t) = lineRequests l t r t ++ lineRequests l t r t ++ [(l, t), (r, t)] ∧
    requestsOf (.drawrect l t l b) = [(l, t), (l, b)] ++ lineRequests l t l b ++ lineRequests l t l b ∧
    ∀ q, (q ∈ requestsOf (.drawrect r t l b) ↔ q ∈ requestsOf (.drawrect l t r b)) ∧
      (q ∈ requestsOf (.drawrect l b r t) ↔ q ∈ requestsOf (.drawrect l t r b))

/-- 43_rectangles.md R120, R121, R123, R125 (the column at x1 is left out: the spec's decision D15): FILLRECT completes; its
requests are, for k < |x1 − x0| in order, the column x0 ± k from y0 to y1 with both ends; |x1 − x0| × (|y1 − y0| + 1) of them,
all distinct; the column at x1 is not among them. -/
def Obligations.FillRequestsColumnByColumn : Prop :=
  ∀ (x0 y0 x1 y1 : Nat) (s : State), ∃ t rs, exec (.fillrect x0 y0 x1 y1) s = .next t ∧
    t.requests = s.requests ++ rs ∧
    rs = (List.range (gap x0 x1)).flatMap (fun k => (List.range (gap y0 y1 + 1)).map fun j => (toward x0 x1 k, toward y0 y1 j)) ∧
    rs.length = gap x0 x1 * (gap y0 y1 + 1) ∧ rs.Nodup ∧ ∀ y, (x1, y) ∉ rs

/-- 43_rectangles.md R122 (the spec's decision D15): FILLRECT with x0 = x1 does nothing at all; with FILL_INCLUDE_X1 = true it
would draw the single column x0. -/
def Obligations.ZeroWidthFillDoesNothing : Prop :=
  ∀ (x y0 y1 : Nat) (s : State),
    exec (.fillrect x y0 x y1) s = .next s ∧
    ∃ t, exec (.drawline x y0 x y1) s = .next t ∧ fill true x y0 x y1 s = t

/-- 70_reset_and_hazards.md R176, 43_rectangles.md R121: FILLRECT x0, y0, x1 + 1, y1 with x0 ≤ x1, and FILLRECT x0, y0, x1 − 1, y1 with
x1 < x0 and 0 < x1, draw the columns x0 to x1 inclusive, which is also what FILL_INCLUDE_X1 = true would draw. -/
def Obligations.FillOneFurtherIsInclusive : Prop :=
  ∀ x0 y0 x1 y1 : Nat,
    (x0 ≤ x1 → requestsOf (.fillrect x0 y0 (x1 + 1) y1) = fillRequests true x0 y0 x1 y1 ∧
      ∀ x y, (x, y) ∈ requestsOf (.fillrect x0 y0 (x1 + 1) y1) ↔ x0 ≤ x ∧ x ≤ x1 ∧ min y0 y1 ≤ y ∧ y ≤ max y0 y1) ∧
    (x1 < x0 → 0 < x1 → requestsOf (.fillrect x0 y0 (x1 - 1) y1) = fillRequests true x0 y0 x1 y1 ∧
      ∀ x y, (x, y) ∈ requestsOf (.fillrect x0 y0 (x1 - 1) y1) ↔ x1 ≤ x ∧ x ≤ x0 ∧ min y0 y1 ≤ y ∧ y ≤ max y0 y1)

/-! ### CLEAR -/

/-- 44_clear.md R131: CLEAR sends exactly 506 events, two of mode COMMAND and then 504 of mode DATA, and every data byte is
zero: the cursor is positioned once, never between data bytes. -/
def Obligations.ClearSendsTwoCommandsAndZeros : Prop :=
  ∀ s : State, ∃ t p q, exec .clear s = .next t ∧
    t.trace = s.trace ++ ([p, q] ++ List.replicate 504 { mode := .data, value := 0x00#8 }) ∧
    t.trace.length = s.trace.length + 506 ∧ p.mode = .command ∧ q.mode = .command

/-- 44_clear.md R130, R132, R133 (cache kept: the spec's decision D10; cursor wrap: D20; byte order: D8): CLEAR positions at
(0, 0), blanks every one of the 504 cells and touches no other key, leaves the cursor at (0, 0) and ACC, PREVX, the requests,
the inputs and a running operation as they were; then no pixel is lit. -/
def Obligations.ClearBlanksTheDisplayAndKeepsTheCache : Prop :=
  ∀ s : State, ∃ t, exec .clear s = .next t ∧
    t.trace = s.trace ++ clearEvents ∧
    (∀ a, Memory.read t.controller.ddram a = if a < 504 then some 0x00#8 else Memory.read s.controller.ddram a) ∧
    (∀ x y, x < 84 → y < 48 → t.controller.lit x y = some false) ∧
    t.controller.cx = 0 ∧ t.controller.cy = 0 ∧
    t.cache = s.cache ∧ t.requests = s.requests ∧ t.inputs = s.inputs ∧ t.running = s.running

/-- 70_reset_and_hazards.md R172 (the spec's decision D10): after SETPIXEL x, y₁ and CLEAR, SETPIXEL x, y₂ sends the old bits
again: its cell holds both bits, and every other cell is blank. -/
def Obligations.CacheIsStaleAcrossClear : Prop :=
  ∀ (s : State) (x y₁ y₂ : Nat), x < 84 → y₁ < 48 → y₂ < 48 →
    ∃ t u v, exec (.setpixel x y₁) s = .next t ∧ exec .clear t = .next u ∧ exec (.setpixel x y₂) u = .next v ∧
      v.cache.acc = t.cache.acc ||| (1#8 <<< (y₂ % 8)) ∧ v.controller.lit x (y₂ / 8 * 8 + y₁ % 8) = some true ∧
      ∀ a, a < 504 → Memory.read v.controller.ddram a = some (if a = y₂ / 8 * 84 + x then v.cache.acc else 0#8)

/-! ### Controller and addressing -/

/-- 20_memory.md R40, R41: pixel (c, 8b + i) of the surface is bit i of the cell (column c, bank b), for every cell and bit; a
pixel is on when that bit is 1. -/
def Obligations.PixelsArePackedEightToACell : Prop :=
  (∀ (c : Fin 84) (b : Fin 6) (i : Fin 8),
    translate c.val (8 * b.val + i.val) = some { column := c, bank := b, bit := i }) ∧
  (∀ (d : Controller) (c : Fin 84) (b : Fin 6) (i : Fin 8) (v : Byte),
    Memory.read d.ddram (cellKey c b) = some v → d.lit c.val (8 * b.val + i.val) = some (v.getLsbD i.val))

/-- 20_memory.md R47, R48 (cursor wrap: the spec's decision D20; notes/assumptions/13.md, 15.md): what the controller does with
each byte, in numbers: COMMAND 128 + c moves to column c < 84; COMMAND 64 + b moves to bank b < 6; every other command
byte is outside its model (93_implementation_defined.md U4); DATA replaces the cell at the cursor and no other, and moves on to the next cell, from the last
column to column 0 of the next bank, from the last bank to bank 0. -/
def Obligations.ControllerConsumesBytes : Prop :=
  ∀ (c : Controller) (v : Byte),
    (∀ x : Fin 84, v.toNat = 128 + x.val → c.receive { mode := .command, value := v } = some { c with cx := x }) ∧
    (212 ≤ v.toNat → c.receive { mode := .command, value := v } = none) ∧
    (∀ b : Fin 6, v.toNat = 64 + b.val → c.receive { mode := .command, value := v } = some { c with cy := b }) ∧
    (70 ≤ v.toNat → v.toNat < 128 → c.receive { mode := .command, value := v } = none) ∧
    (v.toNat < 64 → c.receive { mode := .command, value := v } = none) ∧
    (∃ d, c.receive { mode := .data, value := v } = some d ∧
      (∀ a, Memory.read d.ddram a = if a = c.cy.val * 84 + c.cx.val then some v else Memory.read c.ddram a) ∧
      (d.cy.val * 84 + d.cx.val) = (c.cy.val * 84 + c.cx.val + 1) % 504)

/-- 20_memory.md R57 (the spec's decision D25): a byte of another user of the transport, between commands, changes the
controller at most, and the next command sends what it would have sent without it. -/
def Obligations.ForeignBytesReachOnlyTheController : Prop :=
  ∀ (s t : State) (e : TxEvent) (rest : List Input), s.inputs = .foreign e :: rest → step s = .next t →
    s.busy = false ∧ s.controller.receive e = some t.controller ∧
    { t with controller := s.controller } = { s with inputs := rest } ∧
    ∀ i, ∃ u v, exec i t = .next u ∧ exec i { s with inputs := rest } = .next v ∧ u.trace = v.trace

/-- 30_encoding.md R70, 20_memory.md R51, 00_scope.md R14 (c): every step only appends to the trace; each COMMAND event is one of
the 84 + 6 positioning bytes; and unless the step was a foreign byte's, the controller after it is the one before it that has
consumed exactly the appended events, in order. -/
def Obligations.DisplayIsTheTraceReplayed : Prop :=
  ∀ s t : State, step s = .next t →
    ∃ es, t.trace = s.trace ++ es ∧
      (∀ e ∈ es, e.mode = .command →
        (128 ≤ e.value.toNat ∧ e.value.toNat ≤ 211) ∨ (64 ≤ e.value.toNat ∧ e.value.toNat ≤ 69)) ∧
      ((∃ f rest, s.inputs = .foreign f :: rest ∧ es = []) ∨ s.controller.receiveAll es = some t.controller)

/-! ### Clock, reset, invariant -/

/-- 70_reset_and_hazards.md R160, R161 (the spec's decision D18): in a cycle with rst = 1 nothing is offered and cmd_ready is 1;
after it ACC = 0x00, PREVX = 0x00, BUSY = 0, cmd_ready = 1, tx_valid = 0; no event is sent, and the controller is not reached.
(That a command offered in that cycle is not begun: notes/assumptions/10.md.) -/
def Obligations.ResetCycleResetsTheBlockAlone : Prop :=
  ∀ (s : State) (p : Pins), p.rst = true →
    (s.outputs true) = { cmdReady := true, busy := false, tx := none } ∧
    ((cycle p s).outputs false) = { cmdReady := true, busy := false, tx := none } ∧
    (cycle p s).cache = { acc := 0x00#8, prevx := 0x00#8 } ∧ (cycle p s).busy = false ∧
    (cycle p s).trace = s.trace ∧ (cycle p s).controller = s.controller ∧
    (cycle p s).requests = s.requests ∧ (cycle p s).inputs = s.inputs

/-- That an event is offered in every cycle with BUSY = 1 is the model's own choice (notes/assumptions/9.md, DEDUCED); the rest is
60_exceptions.md R155, 00_scope.md R7, 10_state.md R25 (the spec's decisions D17, D24): cmd_ready = 0; a cycle in which the transport is
not ready changes nothing, so the offer stays as it is; a cycle in which it is ready delivers exactly the event offered. -/
def Obligations.BusyBlockOffersAndHoldsItsEvent : Prop :=
  ∀ s : State, Inv s → s.busy = true →
    ∃ e, s.outputs false = { cmdReady := false, busy := true, tx := some e } ∧
      ∀ p : Pins, p.rst = false →
        (p.txReady = false → cycle p s = s) ∧
        (p.txReady = true → (cycle p s).trace = s.trace ++ [e] ∧ s.controller.receive e = some (cycle p s).controller)

/-- 60_exceptions.md R144 (the step's convention: notes/assumptions/4.md): a command offered while BUSY = 1 is not accepted: a
step leaves it in the inputs and is one clock cycle of the running operation with the transport ready. -/
def Obligations.CommandOfferedWhileBusyStaysOffered : Prop :=
  ∀ (s : State) (w : CmdWord) (rest : List Input), s.busy = true → s.inputs = .command w :: rest →
    ∃ t, step s = .next t ∧ t = cycle readyPins s ∧ t.inputs = s.inputs

/-- 00_scope.md R8, 10_state.md R25, R26, R35 (working registers: the spec's decision D16; cycles: notes/assumptions/9.md): the
clocked block refines Exec: from an idle state, a cycle that accepts a command and then any cycles without reset or another
command give, once the transport has been ready as often as the command has events, exactly the state exec gives, whatever the
stalls between. -/
def Obligations.ClockedBlockRefinesExec : Prop :=
  ∀ (s t : State) (p : Pins) (ps : List Pins) (i : Instr),
    s.busy = false → p.rst = false → p.cmdValid = true → decode p.cmd = .instr i → exec i s = .next t → quiet ps →
    (newEvents s t).length ≤ readyCount ps → cycles (p :: ps) s = t

/-- 10_state.md R25, 00_scope.md R7 (cycles: notes/assumptions/9.md): until the transport has been ready as often as the command
has events, the block is busy, and it has sent as many of the command's events as there were ready cycles, in order, and the
controller has consumed exactly those. -/
def Obligations.BusyUntilTheLastEventIsDelivered : Prop :=
  ∀ (s t : State) (p : Pins) (ps : List Pins) (i : Instr),
    s.busy = false → p.rst = false → p.cmdValid = true → decode p.cmd = .instr i → exec i s = .next t → quiet ps →
    readyCount ps < (newEvents s t).length →
    (cycles (p :: ps) s).busy = true ∧
    (cycles (p :: ps) s).trace = s.trace ++ (newEvents s t).take (readyCount ps) ∧
    s.controller.receiveAll ((newEvents s t).take (readyCount ps)) = some (cycles (p :: ps) s).controller

/-- 70_reset_and_hazards.md R163 (the spec's decision D18): reset while BUSY = 1 abandons the operation at an event boundary: what
was delivered stays delivered and consumed, nothing further is sent however long the transport is ready afterwards, and the
cache has its reset values. (That each ready cycle before the reset delivers one event, so that readyCount counts them, is the
model's own choice: notes/assumptions/9.md, DEDUCED.) -/
def Obligations.ResetCutsTheOperationAtAnEvent : Prop :=
  ∀ (s t : State) (p z : Pins) (ps qs : List Pins) (i : Instr),
    s.busy = false → p.rst = false → p.cmdValid = true → decode p.cmd = .instr i → exec i s = .next t →
    quiet ps → z.rst = true → quiet qs →
    ∃ u, cycles (p :: ps ++ z :: qs) s = u ∧ u.busy = false ∧ u.cache = { acc := 0x00#8, prevx := 0x00#8 } ∧
      u.trace = s.trace ++ (newEvents s t).take (readyCount ps) ∧
      s.controller.receiveAll ((newEvents s t).take (readyCount ps)) = some u.controller

/-- 20_memory.md R40, 10_state.md R22, 40_addressing.md R83, 41_pixel_write.md R95: every step keeps the invariant: display memory
canonical and inside the 504 cells, PREVX a column of the surface, a running operation with an event to offer
(notes/assumptions/9.md, the model's choice), the cursor where its data byte is meant to go and ACC with the bit of its pixel. -/
def Obligations.EveryStepKeepsTheInvariant : Prop :=
  ∀ s t : State, Inv s → step s = .next t → Inv t

/-- 10_state.md R33, 70_reset_and_hazards.md R160: the state after reset: ACC = 0x00, PREVX = 0x00, BUSY = 0, tx_valid = 0,
cmd_ready = 1, no event sent; and the invariant holds there. -/
def Obligations.ResetStateMeetsTheInvariant : Prop :=
  State.reset.cache = { acc := 0x00#8, prevx := 0x00#8 } ∧
  State.reset.outputs false = { cmdReady := true, busy := false, tx := none } ∧
  State.reset.trace = [] ∧ Inv State.reset
end

