-- ==== Sys2Proof/Laws/Memory.lean ====
section
/-! SUPPORT. Display memory: reading after writing, and that writing keeps the canonical form (20_memory.md R40, R46). -/

namespace Sys2Proof.Machine

@[simp] theorem Memory.read_nil (a : Nat) : Memory.read [] a = none := rfl

/-- A write is read back at its own cell and leaves every other cell alone, in any list. -/
theorem Memory.read_write (m : Memory) (a b : Nat) (v : Byte) :
    Memory.read (Memory.write m a v) b = if b = a then some v else Memory.read m b := by
  induction m with
  | nil => simp [Memory.write, Memory.read, eq_comm]
  | cons p m ih =>
    obtain ⟨k, u⟩ := p
    unfold Memory.write
    split
    · simp [Memory.read, eq_comm]
    · split
      · simp only [Memory.read]; grind
      · simp only [Memory.read, ih]; grind

/-- The canonical form in words: keys strictly rising and each that of one of the 504 cells. -/
theorem Memory.wf_iff (m : Memory) :
    m.wf = true ↔ m.Pairwise (fun p q => p.1 < q.1) ∧ ∀ p ∈ m, p.1 < Config.cells := by
  simp [Memory.wf]

theorem Memory.wf_nil : Memory.wf [] = true := rfl

theorem Memory.mem_write {m : Memory} {a : Nat} {v : Byte} {p : Host.Cell} (h : p ∈ Memory.write m a v) :
    p = (a, v) ∨ p ∈ m := by
  induction m with
  | nil => simpa [Memory.write] using h
  | cons q m ih =>
    unfold Memory.write at h
    grind

/-- Writing a cell that exists keeps the canonical form. -/
theorem Memory.write_wf {m : Memory} {a : Nat} (v : Byte) (hm : m.wf = true) (ha : a < Config.cells) :
    (m.write a v).wf = true := by
  rw [Memory.wf_iff] at hm ⊢
  obtain ⟨hp, hk⟩ := hm
  constructor
  · clear hk
    induction m with
    | nil => simp [Memory.write]
    | cons p m ih =>
      obtain ⟨k, u⟩ := p
      obtain ⟨h1, h2⟩ := List.pairwise_cons.mp hp
      unfold Memory.write
      split
      · refine List.pairwise_cons.mpr ⟨fun q hq => ?_, hp⟩
        rcases List.mem_cons.mp hq with rfl | hq
        · assumption
        · have := h1 q hq; simp only at *; omega
      · split
        · subst_vars; exact List.pairwise_cons.mpr ⟨h1, h2⟩
        · refine List.pairwise_cons.mpr ⟨fun q hq => ?_, ih h2⟩
          rcases Memory.mem_write hq with rfl | hq
          · simp only; omega
          · exact h1 q hq
  · intro p hp'
    rcases Memory.mem_write hp' with rfl | h
    · exact ha
    · exact hk p h

end Sys2Proof.Machine
end

