-- ==== Sys2Proof/Laws/Controller.lean ====
section
/-! SUPPORT. The controller's reference model: what the block sends it can read (20_memory.md R44, R47), cell keys, and the
cursor's advance (R48). -/

namespace Sys2Proof.Machine

/-- The controller reads every event of the block as what the block sent. -/
@[simp] theorem readEvent_event (e : Send) : readEvent e.event = some e := by
  cases e with
  | data v => rfl
  | column c => revert c; decide
  | bank b => revert b; decide

/-- What the controller reads is exactly what the block can send; it refuses every other command byte (U4). -/
theorem readEvent_eq_some_iff {e : TxEvent} {x : Send} : readEvent e = some x ↔ e = x.event := by
  constructor
  · obtain ⟨m, v⟩ := e
    cases m with
    | data => intro h; obtain rfl := Option.some.inj h; rfl
    | command =>
      have key : ∀ h l : Fin 16, ∀ y ∈ readEvent { mode := .command, value := BitVec.ofNat 8 (16 * h.val + l.val) },
          ({ mode := .command, value := BitVec.ofNat 8 (16 * h.val + l.val) } : TxEvent) = y.event := by decide
      intro h
      have hv : v = BitVec.ofNat 8 (16 * (v.toNat / 16) + v.toNat % 16) := by
        rw [Nat.div_add_mod, BitVec.ofNat_toNat, BitVec.setWidth_eq]
      have := key ⟨v.toNat / 16, by omega⟩ ⟨v.toNat % 16, by omega⟩ x
      rw [← hv] at this
      exact this h
  · rintro rfl; exact readEvent_event x

@[simp] theorem receive_event (c : Controller) (e : Send) : c.receive e.event = some (c.apply e) := by
  simp [Controller.receive]

theorem receiveAll_append (c : Controller) (es fs : List TxEvent) :
    c.receiveAll (es ++ fs) = (c.receiveAll es).bind fun d => d.receiveAll fs := by
  induction es generalizing c with
  | nil => rfl
  | cons e es ih =>
    simp only [List.cons_append, Controller.receiveAll]
    cases c.receive e with
    | none => rfl
    | some d => simp [ih]

/-- Events of the block are always consumed: the controller applies them one after the other. -/
theorem receiveAll_events (c : Controller) (es : List Send) :
    c.receiveAll (es.map Send.event) = some (es.foldl Controller.apply c) := by
  induction es generalizing c with
  | nil => rfl
  | cons e es ih => simp [Controller.receiveAll, ih]

theorem column_lt (c : Fin Config.width) : c.val < 84 := c.isLt

theorem bank_lt (b : Fin Config.banks) : b.val < 6 := b.isLt

theorem cellKey_eq (c : Fin Config.width) (b : Fin Config.banks) : cellKey c b = b.val * 84 + c.val := rfl

/-- Every cell's key is below CELLS. -/
theorem cellKey_lt (c : Fin Config.width) (b : Fin Config.banks) : cellKey c b < Config.cells := by
  have := column_lt c; have := bank_lt b
  rw [cellKey_eq, show Config.cells = 504 from rfl]; omega

/-- Different cells have different keys. -/
theorem cellKey_inj {c c' : Fin Config.width} {b b' : Fin Config.banks} (h : cellKey c b = cellKey c' b') :
    c = c' ∧ b = b' := by
  have := column_lt c; have := column_lt c'
  rw [cellKey_eq, cellKey_eq] at h
  constructor <;> apply Fin.ext <;> omega

@[simp] theorem advance_ddram (c : Controller) : c.advance.ddram = c.ddram := by
  unfold Controller.advance; split <;> rfl

/-- The cursor moves on to the next key, from the last cell to the first. -/
theorem advance_key (c : Controller) :
    cellKey c.advance.cx c.advance.cy = (cellKey c.cx c.cy + 1) % Config.cells := by
  have hx := column_lt c.cx; have hy := bank_lt c.cy
  rw [cellKey_eq, cellKey_eq, show Config.cells = 504 from rfl]
  unfold Controller.advance
  split
  · rename_i h
    have h : c.cx.val + 1 < 84 := h
    show c.cy.val * 84 + (c.cx.val + 1) = _
    omega
  · rename_i h
    have h : ¬c.cx.val + 1 < 84 := h
    show (c.cy.val + 1) % 6 * 84 + 0 = _
    omega

@[simp] theorem apply_data_ddram (c : Controller) (v : Byte) :
    (c.apply (.data v)).ddram = c.ddram.write (cellKey c.cx c.cy) v := by
  simp [Controller.apply]

/-- Whatever is sent, the controller's memory stays canonical. -/
theorem apply_wf {c : Controller} (e : Send) (h : c.ddram.wf = true) : (c.apply e).ddram.wf = true := by
  cases e with
  | column x => exact h
  | bank b => exact h
  | data v => rw [apply_data_ddram]; exact Memory.write_wf v h (cellKey_lt _ _)

end Sys2Proof.Machine
end

