-- ==== Sys2Proof/Laws/State.lean ====
section
/-! SUPPORT. What each update of the state does to each field, one lemma a field, true by definition. -/

namespace Sys2Proof.Machine

variable (s : State)

@[simp] theorem send_cache (e : Send) : (s.send e).cache = s.cache := rfl
@[simp] theorem send_running (e : Send) : (s.send e).running = s.running := rfl
@[simp] theorem send_controller (e : Send) : (s.send e).controller = s.controller.apply e := rfl
@[simp] theorem send_trace (e : Send) : (s.send e).trace = s.trace ++ [e.event] := rfl
@[simp] theorem send_requests (e : Send) : (s.send e).requests = s.requests := rfl
@[simp] theorem send_inputs (e : Send) : (s.send e).inputs = s.inputs := rfl

@[simp] theorem posCur_cache (c : Fin Config.width) (b : Fin Config.banks) : (s.posCur c b).cache = s.cache := rfl
@[simp] theorem posCur_running (c : Fin Config.width) (b : Fin Config.banks) : (s.posCur c b).running = s.running := rfl
@[simp] theorem posCur_controller (c : Fin Config.width) (b : Fin Config.banks) :
    (s.posCur c b).controller = { s.controller with cx := c, cy := b } := rfl
@[simp] theorem posCur_trace (c : Fin Config.width) (b : Fin Config.banks) :
    (s.posCur c b).trace = s.trace ++ [(Send.column c).event, (Send.bank b).event] := by
  simp [State.posCur]
@[simp] theorem posCur_requests (c : Fin Config.width) (b : Fin Config.banks) :
    (s.posCur c b).requests = s.requests := rfl
@[simp] theorem posCur_inputs (c : Fin Config.width) (b : Fin Config.banks) : (s.posCur c b).inputs = s.inputs := rfl

@[simp] theorem note_cache (r : Request) : (s.note r).cache = s.cache := rfl
@[simp] theorem note_running (r : Request) : (s.note r).running = s.running := rfl
@[simp] theorem note_controller (r : Request) : (s.note r).controller = s.controller := rfl
@[simp] theorem note_trace (r : Request) : (s.note r).trace = s.trace := rfl
@[simp] theorem note_requests (r : Request) : (s.note r).requests = s.requests ++ [r] := rfl
@[simp] theorem note_inputs (r : Request) : (s.note r).inputs = s.inputs := rfl

@[simp] theorem setInputs_cache (rest : List Input) : (s.setInputs rest).cache = s.cache := rfl
@[simp] theorem setInputs_running (rest : List Input) : (s.setInputs rest).running = s.running := rfl
@[simp] theorem setInputs_controller (rest : List Input) : (s.setInputs rest).controller = s.controller := rfl
@[simp] theorem setInputs_trace (rest : List Input) : (s.setInputs rest).trace = s.trace := rfl
@[simp] theorem setInputs_requests (rest : List Input) : (s.setInputs rest).requests = s.requests := rfl
@[simp] theorem setInputs_inputs (rest : List Input) : (s.setInputs rest).inputs = rest := rfl
@[simp] theorem setInputs_busy (rest : List Input) : (s.setInputs rest).busy = s.busy := rfl

@[simp] theorem resetBlock_cache :
    s.resetBlock.cache = { acc := Config.accReset, prevx := Config.prevxReset } := rfl
@[simp] theorem resetBlock_running : s.resetBlock.running = none := rfl
@[simp] theorem resetBlock_controller : s.resetBlock.controller = s.controller := rfl
@[simp] theorem resetBlock_trace : s.resetBlock.trace = s.trace := rfl
@[simp] theorem resetBlock_requests : s.resetBlock.requests = s.requests := rfl
@[simp] theorem resetBlock_inputs : s.resetBlock.inputs = s.inputs := rfl

@[simp] theorem build_prevx (c : Cache) (p : Place) : (c.build p).prevx = c.prevx := rfl
@[simp] theorem record_acc (c : Cache) (x : Byte) : (c.record x).acc = c.acc := rfl
@[simp] theorem record_prevx (c : Cache) (x : Byte) : (c.record x).prevx = x := rfl

@[simp] theorem reservedCommand_eq (op : Byte) : reservedCommand op s = s := rfl
@[simp] theorem waitForInput_eq : waitForInput s = s := rfl

theorem busy_iff_running : s.busy = true ↔ ∃ r, s.running = some r := by
  simp [State.busy, Option.isSome_iff_exists]

theorem not_busy_iff : s.busy = false ↔ s.running = none := by
  simp [State.busy]

end Sys2Proof.Machine
end

