-- ==== Sys2Proof/Laws/Clear.lean ====
section
/-! SUPPORT. What a run of zero bytes does to each field (44_clear.md R130). -/

namespace Sys2Proof.Machine

@[simp] theorem sendZeros_zero (s : State) : sendZeros 0 s = s := rfl

theorem sendZeros_succ (n : Nat) (s : State) : sendZeros (n + 1) s = sendZeros n (s.send (.data 0x00#8)) := rfl

@[simp] theorem sendZeros_cache (n : Nat) (s : State) : (sendZeros n s).cache = s.cache := by
  induction n generalizing s with
  | zero => rfl
  | succ n ih => rw [sendZeros_succ, ih, send_cache]

@[simp] theorem sendZeros_running (n : Nat) (s : State) : (sendZeros n s).running = s.running := by
  induction n generalizing s with
  | zero => rfl
  | succ n ih => rw [sendZeros_succ, ih, send_running]

@[simp] theorem sendZeros_requests (n : Nat) (s : State) : (sendZeros n s).requests = s.requests := by
  induction n generalizing s with
  | zero => rfl
  | succ n ih => rw [sendZeros_succ, ih, send_requests]

@[simp] theorem sendZeros_inputs (n : Nat) (s : State) : (sendZeros n s).inputs = s.inputs := by
  induction n generalizing s with
  | zero => rfl
  | succ n ih => rw [sendZeros_succ, ih, send_inputs]

@[simp] theorem sendZeros_trace (n : Nat) (s : State) :
    (sendZeros n s).trace = s.trace ++ List.replicate n { mode := .data, value := 0x00#8 } := by
  induction n generalizing s with
  | zero => simp
  | succ n ih => rw [sendZeros_succ, ih, send_trace, List.replicate_succ]; simp [Send.event]

/-- The controller after `n` zero bytes is the one it was, having applied `n` zero bytes. -/
theorem sendZeros_controller (n : Nat) (s : State) :
    (sendZeros n s).controller = (fun c => Controller.apply c (.data 0x00#8))^[n] s.controller := by
  induction n generalizing s with
  | zero => rfl
  | succ n ih => rw [sendZeros_succ, ih, send_controller, Function.iterate_succ_apply]

end Sys2Proof.Machine
end

