-- ==== Sys2Proof/Laws/Pixel.lean ====
section
/-! SUPPORT. What the pixel write primitive does (41_pixel_write.md R91 to R93), and what a list of pixel requests does. -/

namespace Sys2Proof.Machine

open Sys2Proof.Safety

/-- A request off the surface translates to none (20_memory.md R42, R43). -/
theorem translate_eq_none {x y : Nat} (h : ¬(x < 84 ∧ y < 48)) : translate x y = none := dif_neg h

/-- A request on the surface translates to its place (R42). -/
theorem translate_eq_some {x y : Nat} (h : x < 84 ∧ y < 48) :
    translate x y = some { column := ⟨x, h.1⟩, bank := ⟨y / 8, Nat.div_lt_of_lt_mul h.2⟩,
                           bit := ⟨y % 8, Nat.mod_lt y (by decide)⟩ } := dif_pos h

theorem translate_isSome_iff (x y : Nat) : (translate x y).isSome = true ↔ x < 84 ∧ y < 48 := by
  by_cases h : x < 84 ∧ y < 48
  · simp [translate_eq_some h, h]
  · simp [translate_eq_none h, h]

theorem inRange_iff (x y : Nat) : inRange x y = true ↔ x < 84 ∧ y < 48 := by
  simp [inRange]

/-- A dropped request is noted and nothing else happens (41_pixel_write.md R93). -/
theorem pixel_dropped (s : State) {x y : Nat} (h : ¬(x < 84 ∧ y < 48)) : pixel s (x, y) = s.note (x, y) := by
  simp [pixel, translate_eq_none h]

/-- An accepted request, in its six steps at once (R91). -/
theorem pixel_accepted (s : State) {x y : Nat} (h : x < 84 ∧ y < 48) :
    pixel s (x, y) =
      { cache := { acc := accAfter s.cache x y, prevx := BitVec.ofNat 8 x }
        running := s.running
        controller := Controller.apply
          { cx := ⟨x, h.1⟩, cy := ⟨y / 8, Nat.div_lt_of_lt_mul h.2⟩, ddram := s.controller.ddram }
          (.data (accAfter s.cache x y))
        trace := s.trace ++ pixelEvents s.cache x y
        requests := s.requests ++ [(x, y)]
        inputs := s.inputs } := by
  simp [pixel, translate_eq_some h, State.posCur, State.send, State.note, pixelEvents, accAfter, Cache.build,
    Cache.record, Send.event, Config.setColBase, Config.setBankBase, Controller.apply]
  exact ⟨rfl, rfl, rfl⟩

@[simp] theorem pixel_running (s : State) (r : Request) : (pixel s r).running = s.running := by
  obtain ⟨x, y⟩ := r
  by_cases h : x < 84 ∧ y < 48
  · rw [pixel_accepted s h]
  · rw [pixel_dropped s h]; rfl

@[simp] theorem pixel_inputs (s : State) (r : Request) : (pixel s r).inputs = s.inputs := by
  obtain ⟨x, y⟩ := r
  by_cases h : x < 84 ∧ y < 48
  · rw [pixel_accepted s h]
  · rw [pixel_dropped s h]; rfl

@[simp] theorem pixel_requests (s : State) (r : Request) : (pixel s r).requests = s.requests ++ [r] := by
  obtain ⟨x, y⟩ := r
  by_cases h : x < 84 ∧ y < 48
  · rw [pixel_accepted s h]
  · rw [pixel_dropped s h]; rfl

@[simp] theorem drawAll_nil (s : State) : drawAll s [] = s := rfl

@[simp] theorem drawAll_cons (s : State) (r : Request) (rs : List Request) :
    drawAll s (r :: rs) = drawAll (pixel s r) rs := rfl

theorem drawAll_append (s : State) (rs qs : List Request) : drawAll s (rs ++ qs) = drawAll (drawAll s rs) qs := by
  simp [drawAll]

@[simp] theorem drawAll_running (s : State) (rs : List Request) : (drawAll s rs).running = s.running := by
  induction rs generalizing s with
  | nil => rfl
  | cons r rs ih => rw [drawAll_cons, ih, pixel_running]

@[simp] theorem drawAll_inputs (s : State) (rs : List Request) : (drawAll s rs).inputs = s.inputs := by
  induction rs generalizing s with
  | nil => rfl
  | cons r rs ih => rw [drawAll_cons, ih, pixel_inputs]

@[simp] theorem drawAll_requests (s : State) (rs : List Request) : (drawAll s rs).requests = s.requests ++ rs := by
  induction rs generalizing s with
  | nil => simp
  | cons r rs ih => simp [ih]

/-- What a list of requests sends and leaves in the cache is `drawEffect` of the cache it starts from. -/
theorem drawAll_effect (s : State) (rs : List Request) :
    (drawAll s rs).trace = s.trace ++ (drawEffect rs s.cache).1 ∧ (drawAll s rs).cache = (drawEffect rs s.cache).2 := by
  induction rs generalizing s with
  | nil => simp [drawEffect]
  | cons r rs ih =>
    obtain ⟨x, y⟩ := r
    by_cases h : x < 84 ∧ y < 48
    · simp [ih, pixel_accepted s h, drawEffect, h]
    · simp only [drawAll_cons, ih, pixel_dropped s h, drawEffect, if_neg h, note_trace, note_cache, and_self]

end Sys2Proof.Machine
end

