-- ==== Sys2Proof/Laws/Line.lean ====
section
/-! SUPPORT. The shape of a line's request list (42_line.md R101, R105) and lines as lists of requests. -/

namespace Sys2Proof.Machine

open Sys2Proof.Safety

@[simp] theorem lineFrom_length (p : LineParams) (n : Nat) (q : LinePos) : (lineFrom p n q).length = n + 1 := by
  induction n generalizing q with
  | zero => rfl
  | succ n ih => simp [lineFrom, ih]

/-- The `k`-th request of a line is the pixel after `k` advances. -/
theorem lineFrom_eq_map (p : LineParams) (n : Nat) (q : LinePos) :
    lineFrom p n q = (List.range (n + 1)).map fun k => ((p.advance^[k] q).x, (p.advance^[k] q).y) := by
  induction n generalizing q with
  | zero => rfl
  | succ n ih =>
    rw [List.range_succ_eq_map, List.map_cons, List.map_map, lineFrom, ih]
    rfl

theorem lineFrom_ne_nil (p : LineParams) (n : Nat) (q : LinePos) : lineFrom p n q ≠ [] := by
  cases n <;> simp [lineFrom]

theorem magnitude_comm (u v : Nat) : magnitude u v = magnitude v u := by
  unfold magnitude; split <;> split <;> omega

theorem magnitude_eq_gap (u v : Nat) : magnitude u v = gap u v := by
  unfold magnitude gap; split <;> omega

/-- The driving magnitude is the larger, the minor one the smaller (R101). -/
theorem lineParams_dmaj (x1 y1 x2 y2 : Nat) : (lineParams x1 y1 x2 y2).dmaj = max (gap x1 x2) (gap y1 y2) := by
  simp only [lineParams, magnitude_eq_gap, xMajor, decide_eq_true_eq]; split <;> omega

theorem lineParams_dmin (x1 y1 x2 y2 : Nat) : (lineParams x1 y1 x2 y2).dmin = min (gap x1 x2) (gap y1 y2) := by
  simp only [lineParams, magnitude_eq_gap, xMajor, decide_eq_true_eq]; split <;> omega

@[simp] theorem lineRequests_length (x1 y1 x2 y2 : Nat) :
    (lineRequests x1 y1 x2 y2).length = max (gap x1 x2) (gap y1 y2) + 1 := by
  simp [lineRequests, lineParams_dmaj]

/-- An outline is its four edges' requests in one list (43_rectangles.md R115). -/
theorem rect_eq_drawAll (l t r b : Nat) (s : State) : rect l t r b s = drawAll s (rectRequests l t r b) := by
  simp [rect, line, rectRequests, drawAll_append]

/-- A fill is its columns' requests in one list (R120). -/
theorem fill_eq_drawAll (includeX1 : Bool) (x0 y0 x1 y1 : Nat) (s : State) :
    fill includeX1 x0 y0 x1 y1 s = drawAll s (fillRequests includeX1 x0 y0 x1 y1) := by
  unfold fill fillRequests
  induction fillColumns includeX1 x0 x1 generalizing s with
  | nil => rfl
  | cons x xs ih => rw [List.foldl_cons, ih, List.flatMap_cons, drawAll_append]; rfl

end Sys2Proof.Machine
end

