-- ==== Sys2Proof/Laws/Step.lean ====
section
/-! SUPPORT. What exec and step can answer, said once: every command goes on, by drawing its requests or by clearing; a step
is one of six cases. -/

namespace Sys2Proof.Machine

open Sys2Proof.Safety

/-- CLEAR goes on with the display cleared. -/
theorem exec_clear (s : State) : exec .clear s = .next (sendZeros Config.cells (s.posCur 0 0)) := rfl

/-- Every other command goes on with its requests drawn (00_scope.md R2). -/
theorem exec_drawing {i : Instr} (h : i ≠ .clear) (s : State) : exec i s = .next (drawAll s (requestsOf i)) := by
  cases i with
  | clear => exact absurd rfl h
  | setpixel x y => rfl
  | drawline x1 y1 x2 y2 => rfl
  | drawrect l t r b => exact congrArg Host.Outcome.next (rect_eq_drawAll l t r b s)
  | fillrect x0 y0 x1 y1 => exact congrArg Host.Outcome.next (fill_eq_drawAll _ x0 y0 x1 y1 s)

/-- The effect of a drawing command is that of its requests (R8, R2). -/
theorem execEffect_drawing {i : Instr} (h : i ≠ .clear) (c : Cache) : execEffect i c = drawEffect (requestsOf i) c := by
  cases i with
  | clear => exact absurd rfl h
  | setpixel x y => rfl
  | drawline x1 y1 x2 y2 => rfl
  | drawrect l t r b => rfl
  | fillrect x0 y0 x1 y1 => rfl

/-- A word that decodes to a command has that command's effect (R8). -/
theorem wordEffect_instr {w : CmdWord} {i : Instr} (h : decode w = .instr i) (c : Cache) :
    wordEffect w c = execEffect i c := by
  simp [wordEffect, h]

/-- A word with a reserved opcode has none (30_encoding.md R64). -/
theorem wordEffect_reserved {w : CmdWord} {op : Byte} (h : decode w = .reserved op) (c : Cache) :
    wordEffect w c = ([], c) := by
  simp [wordEffect, h]

@[simp] theorem programEffect_nil (c : Cache) : programEffect [] c = ([], c) := rfl

/-- A program's events are its first word's and then those of the rest, from the cache the first leaves (R8). -/
theorem programEffect_cons (w : CmdWord) (ws : List CmdWord) (c : Cache) :
    programEffect (w :: ws) c =
      ((wordEffect w c).1 ++ (programEffect ws (wordEffect w c).2).1, (programEffect ws (wordEffect w c).2).2) := rfl

/-- A run whose first step goes on is the rest of the run from there. -/
theorem run_succ_next {s t : State} (n : Nat) (h : step s = .next t) :
    Sys2Proof.core.run (n + 1) s = Sys2Proof.core.run n t := by
  have h' : Sys2Proof.core.step s = .next t := h
  simp only [Host.Core.run, h']

/-- What a step that goes on has done. -/
theorem step_next_cases {s t : State} (h : step s = .next t) :
    (s.inputs = [] ∧ t = s) ∨
    (∃ w rest, s.inputs = .command w :: rest ∧ s.busy = true ∧ t = heldCommand w s) ∨
    (∃ w rest i, s.inputs = .command w :: rest ∧ s.busy = false ∧ decode w = .instr i ∧
      exec i (s.setInputs rest) = .next t) ∨
    (∃ w rest op, s.inputs = .command w :: rest ∧ s.busy = false ∧ decode w = .reserved op ∧ t = s.setInputs rest) ∨
    (∃ p rest, s.inputs = .clock p :: rest ∧ t = cycle p (s.setInputs rest)) ∨
    (∃ e rest c, s.inputs = .foreign e :: rest ∧ s.busy = false ∧ s.controller.receive e = some c ∧
      t = { s.setInputs rest with controller := c }) := by
  unfold step at h
  split at h
  · rename_i hi; exact .inl ⟨hi, by simpa using h.symm⟩
  · rename_i w rest hi
    refine .inr ?_
    split at h
    · rename_i hb; exact .inl ⟨w, rest, hi, hb, by simpa using h.symm⟩
    · rename_i hb
      refine .inr ?_
      split at h
      · rename_i i hd; exact .inl ⟨w, rest, i, hi, by simpa using hb, hd, h⟩
      · rename_i op hd; exact .inr (.inl ⟨w, rest, op, hi, by simpa using hb, hd, by simpa using h.symm⟩)
  · rename_i p rest hi
    exact .inr (.inr (.inr (.inr (.inl ⟨p, rest, hi, by simpa using h.symm⟩))))
  · rename_i e rest hi
    refine .inr (.inr (.inr (.inr (.inr ?_))))
    unfold foreignByte at h
    split at h
    · simp at h
    · rename_i hb
      split at h
      · rename_i c hc
        exact ⟨e, rest, c, hi, by simpa using hb, hc, by simpa using h.symm⟩
      · simp at h

end Sys2Proof.Machine
end

