-- ==== Sys2Proof/Laws/Clock.lean ====
section
/-! SUPPORT. What a clock cycle can do, said once for each of its parts. -/

namespace Sys2Proof.Machine

/-- Taking up requests sends nothing and leaves PREVX and the inputs; it ends idle, or offering the column command of a request
in range with ACC built for it from the cache it started with. -/
theorem takeUp_cases (fuel : Nat) (r : Running) (d : Draw) (s : State) :
    (takeUp fuel r d s).trace = s.trace ∧ (takeUp fuel r d s).controller = s.controller ∧
    (takeUp fuel r d s).inputs = s.inputs ∧ (takeUp fuel r d s).cache.prevx = s.cache.prevx ∧
    (((takeUp fuel r d s).running = none ∧ (takeUp fuel r d s).cache = s.cache) ∨
      ∃ d' p, translate d'.request.1 d'.request.2 = some p ∧ (takeUp fuel r d s).cache = s.cache.build p ∧
        (takeUp fuel r d s).running = some { r with txphase := .column, engine := .draw d' }) := by
  induction fuel generalizing d s with
  | zero =>
    unfold takeUp
    split
    · rename_i p hp; exact ⟨rfl, rfl, rfl, rfl, .inr ⟨d, p, hp, rfl, rfl⟩⟩
    · exact ⟨rfl, rfl, rfl, rfl, .inl ⟨rfl, rfl⟩⟩
  | succ fuel ih =>
    unfold takeUp
    split
    · rename_i p hp; exact ⟨rfl, rfl, rfl, rfl, .inr ⟨d, p, hp, rfl, rfl⟩⟩
    · cases d.next r with
      | none => exact ⟨rfl, rfl, rfl, rfl, .inl ⟨rfl, rfl⟩⟩
      | some d' => exact ih d' (s.note d.request)

/-- The bit of a place is set in ACC once it is built (41_pixel_write.md R95). -/
theorem build_has_bit (c : Cache) (p : Place) : (c.build p).acc.getLsbD p.bit.val = true := by
  simp [Cache.build, p.bit.isLt]

/-- In a cycle with reset the block is reset. -/
theorem cycle_reset {p : Pins} (s : State) (h : p.rst = true) : cycle p s = s.resetBlock := by
  simp [cycle, h]

/-- An idle block that is offered no command stays as it is. -/
theorem cycle_idle {p : Pins} {s : State} (hr : p.rst = false) (hv : p.cmdValid = false) (hs : s.running = none) :
    cycle p s = s := by
  simp [cycle, hr, hv, hs]

/-- An idle block accepts an offered command. -/
theorem cycle_accept {p : Pins} {s : State} (hr : p.rst = false) (hv : p.cmdValid = true) (hs : s.running = none) :
    cycle p s = accept p.cmd s := by
  simp [cycle, hr, hv, hs]

/-- A busy block whose transport is not ready holds its event (60_exceptions.md R155). -/
theorem cycle_stall {p : Pins} {s : State} {r : Running} {e : Send} (hr : p.rst = false) (ht : p.txReady = false)
    (hs : s.running = some r) (he : r.offer s.cache = some e) : cycle p s = s := by
  simp [cycle, hr, ht, hs, he]

/-- A busy block whose transport is ready delivers the event it offers (00_scope.md R7). -/
theorem cycle_deliver {p : Pins} {s : State} {r : Running} {e : Send} (hr : p.rst = false) (ht : p.txReady = true)
    (hs : s.running = some r) (he : r.offer s.cache = some e) : cycle p s = afterEvent r (s.send e) := by
  simp [cycle, hr, ht, hs, he]

@[simp] theorem cycles_nil (s : State) : cycles [] s = s := rfl

@[simp] theorem cycles_cons (p : Pins) (ps : List Pins) (s : State) : cycles (p :: ps) s = cycles ps (cycle p s) := rfl

theorem cycles_append (ps qs : List Pins) (s : State) : cycles (ps ++ qs) s = cycles qs (cycles ps s) := by
  simp [cycles]

end Sys2Proof.Machine
end

