-- ==== Sys2Proof/Laws/Encoding.lean ====
section
/-! SUPPORT. The fields of a packed command word (30_encoding.md R60). -/

namespace Sys2Proof

section
variable (op a b c d : Byte)

@[simp] theorem fieldOp_packWord : fieldOp (packWord op a b c d) = op := by
  simp only [fieldOp, byteAt, packWord]; ext i hi; simp; grind

@[simp] theorem fieldA_packWord : fieldA (packWord op a b c d) = a := by
  simp only [fieldA, byteAt, packWord]; ext i hi; simp; grind

@[simp] theorem fieldB_packWord : fieldB (packWord op a b c d) = b := by
  simp only [fieldB, byteAt, packWord]; ext i hi; simp; grind

@[simp] theorem fieldC_packWord : fieldC (packWord op a b c d) = c := by
  simp only [fieldC, byteAt, packWord]; ext i hi; simp; grind

@[simp] theorem fieldD_packWord : fieldD (packWord op a b c d) = d := by
  simp only [fieldD, byteAt, packWord]; ext i hi; simp; grind

end

/-- An operand fits its field when it is below 256 (R61). -/
theorem operandFits_iff (n : Nat) : operandFits n = true ↔ n < 256 := by simp [operandFits, Config.coordBits]

/-- A command is well-formed when each of its operands is below 256 (R61). -/
theorem wellFormed_iff (i : Instr) : WellFormed i ↔ ∀ n ∈ operandsOf i, n < 256 := by
  cases i <;> simp [WellFormed, Instr.wellFormed, operandFits_iff, operandsOf, and_assoc]

end Sys2Proof
end

