-- ==== Sys2Proof/Laws/Params.lean ====
section
/-! SUPPORT. The constraints the parameters satisfy (00_scope.md R11). -/

namespace Sys2Proof.Laws.Params

theorem banks_eq : Config.banks = Config.height / 8 := rfl

theorem cells_eq : Config.cells = Config.width * Config.banks := rfl

theorem height_is_multiple_of_eight : Config.height % 8 = 0 := rfl

theorem width_le_128 : Config.width ≤ 128 := by decide

theorem banks_le_8 : Config.banks ≤ 8 := by decide

theorem surface_fits_coordinates : Config.width < 2 ^ Config.coordBits ∧ Config.height < 2 ^ Config.coordBits := by decide

end Sys2Proof.Laws.Params
end

