-- ==== Sys2Proof/Laws/PerInstr.lean ====
section
/-! SUPPORT. Statements about commands as syntax, made for each constructor: the fields of a command's canonical word
(30_encoding.md R60, R63, R65). -/

namespace Sys2Proof.Laws.CanonicalWord

/-- The canonical word of a well-formed command holds its opcode, then its operands in the fields a, b, c, d in order, and 0 in the
fields after them. -/
def Statement (i : Instr) : Prop :=
  WellFormed i →
    (fieldOp (encode i)).toNat = opcodeOf i ∧
    [(fieldA (encode i)).toNat, (fieldB (encode i)).toNat, (fieldC (encode i)).toNat, (fieldD (encode i)).toNat] =
      operandsOf i ++ List.replicate (4 - (operandsOf i).length) 0

theorem clear : Statement .clear := by
  intro _
  simp [encode, operandsOf, opcodeOf, packFields]

theorem setpixel (x y : Nat) : Statement (.setpixel x y) := by
  intro h
  simp only [wellFormed_iff, operandsOf, List.mem_cons, List.not_mem_nil, forall_eq_or_imp] at h
  simp [encode, operandsOf, opcodeOf, packFields]
  omega

theorem drawline (x1 y1 x2 y2 : Nat) : Statement (.drawline x1 y1 x2 y2) := by
  intro h
  simp only [wellFormed_iff, operandsOf, List.mem_cons, List.not_mem_nil, forall_eq_or_imp] at h
  simp [encode, operandsOf, opcodeOf, packFields]
  omega

theorem drawrect (l t r b : Nat) : Statement (.drawrect l t r b) := by
  intro h
  simp only [wellFormed_iff, operandsOf, List.mem_cons, List.not_mem_nil, forall_eq_or_imp] at h
  simp [encode, operandsOf, opcodeOf, packFields]
  omega

theorem fillrect (x0 y0 x1 y1 : Nat) : Statement (.fillrect x0 y0 x1 y1) := by
  intro h
  simp only [wellFormed_iff, operandsOf, List.mem_cons, List.not_mem_nil, forall_eq_or_imp] at h
  simp [encode, operandsOf, opcodeOf, packFields]
  omega

end Sys2Proof.Laws.CanonicalWord
end

