-- ==== Sys2Proof/Tests/Slice0.lean ====
section
/-! SUPPORT. Tests: expected values from 95_test_vectors.md or worked out by hand from the rules, none from the model. Then, for
each statement with hypotheses, a concrete case that meets them all. -/

namespace Sys2Proof.Tests

open Sys2Proof.Machine Sys2Proof.Safety

/-! ### WellFormed: an ill-formed term for each check (30_encoding.md R61) -/

theorem test_ill_formed_setpixel_refused :
    (Instr.setpixel 256 0).wellFormed = false ∧ (Instr.setpixel 0 256).wellFormed = false := by decide

theorem test_ill_formed_drawline_refused :
    (Instr.drawline 256 0 0 0).wellFormed = false ∧ (Instr.drawline 0 256 0 0).wellFormed = false ∧
    (Instr.drawline 0 0 256 0).wellFormed = false ∧ (Instr.drawline 0 0 0 256).wellFormed = false := by decide

theorem test_ill_formed_drawrect_refused :
    (Instr.drawrect 256 0 0 0).wellFormed = false ∧ (Instr.drawrect 0 256 0 0).wellFormed = false ∧
    (Instr.drawrect 0 0 256 0).wellFormed = false ∧ (Instr.drawrect 0 0 0 256).wellFormed = false := by decide

theorem test_ill_formed_fillrect_refused :
    (Instr.fillrect 256 0 0 0).wellFormed = false ∧ (Instr.fillrect 0 256 0 0).wellFormed = false ∧
    (Instr.fillrect 0 0 256 0).wellFormed = false ∧ (Instr.fillrect 0 0 0 256).wellFormed = false := by decide

theorem test_well_formed_at_the_bound : (Instr.drawline 255 255 255 255).wellFormed = true := by decide

/-! ### Decoding: words written out bit by bit from the fields op, a, b, c, d (30_encoding.md R60, R63) -/

theorem test_decode_clear : decode 0b00000001_11011110_10101101_10111110_11101111#40 = .instr .clear := by decide

theorem test_decode_setpixel :
    decode 0b00000010_00000111_00001001_10101011_11001101#40 = .instr (.setpixel 7 9) := by decide

theorem test_decode_drawline :
    decode 0b00000011_01010000_00101110_01011010_00110010#40 = .instr (.drawline 80 46 90 50) := by decide

theorem test_decode_drawrect :
    decode 0b00000100_00000000_00000100_00000011_00001011#40 = .instr (.drawrect 0 4 3 11) := by decide

theorem test_decode_fillrect :
    decode 0b00000101_00000010_00000011_00000100_10000000#40 = .instr (.fillrect 2 3 4 128) := by decide

/-- V7: the reserved words. -/
theorem test_decode_reserved :
    decode 0x0000000000#40 = .reserved 0x00#8 ∧ decode 0x0601020304#40 = .reserved 0x06#8 ∧
    decode 0xFFFFFFFFFF#40 = .reserved 0xFF#8 := by decide

/-- V3.19's word from its line. -/
theorem test_encode_drawline : encode (.drawline 80 46 90 50) = 0x03502E5A32#40 := by decide

theorem test_decode_table_word :
    decodeTableWord 40 0x0502020505 = some (.fillrect 2 2 5 5) ∧ decodeTableWord 40 0x0900000000 = none := by decide

/-- R56: opcode byte first; four bytes are no command yet. -/
theorem test_decode_bytes :
    decodeBytes [0x02#8, 5#8, 3#8, 0#8, 0#8, 0xAA#8] = some (.instr (.setpixel 5 3), [0xAA#8]) ∧
    decodeBytes [0x02#8, 5#8, 3#8, 0#8] = none := by decide

/-- R71: decimal and hexadecimal operands; a wrong name, a wrong count and an operand that is no byte do not assemble. -/
theorem test_assemble :
    assemble "FILLRECT 2, 2, 0x5, 0x05" = some 0x0502020505#40 ∧ assemble "drawRectOutline 0,0,10,5" = some 0x0400000A05#40 ∧
    assemble "SETPIXEL 1" = none ∧ assemble "SETPIXEL 256, 0" = none ∧ assemble "POSCUR 0, 0" = none := by decide

/-! ### Instructions (95_test_vectors.md) -/

/-- The state an outcome goes on to. -/
def nextState : Host.Outcome State Fault Refusal → Option State
  | .next s => some s
  | .fault _ => none
  | .refused _ => none

/-- The reset state with a cache of our choosing. -/
def withCache (acc prevx : Byte) : State := { State.reset with cache := { acc := acc, prevx := prevx } }

def c (v : Byte) : TxEvent := { mode := .command, value := v }

def d (v : Byte) : TxEvent := { mode := .data, value := v }

/-- V6.1: two commands and 504 zeros. -/
theorem test_clear_sends_506 :
    (nextState (step (State.reset.withFetchWord 40 0x0100000000))).map (fun s => (s.trace.length, s.trace.take 3)) =
      some (506, [c 0x80#8, c 0x40#8, d 0x00#8]) := by decide +kernel

/-- V6.3: the cache is kept. -/
theorem test_clear_keeps_cache :
    (nextState (exec .clear (withCache 0x01#8 0x05#8))).map (·.cache) = some { acc := 0x01#8, prevx := 0x05#8 } := by
  decide +kernel

/-- V2.8, second command: same x, next bank: the old bit is carried. -/
theorem test_setpixel_carries_across_banks :
    (nextState (exec (.setpixel 5 9) (withCache 0x01#8 0x05#8))).map (fun s => (s.trace, s.cache.acc)) =
      some ([c 0x85#8, c 0x41#8, d 0x03#8], 0x03#8) := by decide

/-- V2.2: the last pixel; the cursor wraps to (0, 0). -/
theorem test_setpixel_last_cell_wraps :
    (nextState (step (State.reset.withFetchWord 40 0x02532F0000))).map
      (fun s => (s.controller.ddram, s.controller.cx.val, s.controller.cy.val)) = some ([(503, 0x80#8)], 0, 0) := by decide

/-- V3.14: the ties of a line going up and left. -/
theorem test_drawline_requests :
    (nextState (exec (.drawline 4 1 0 0) State.reset)).map (·.requests) =
      some [(4, 1), (3, 1), (2, 1), (1, 0), (0, 0)] := by decide

/-- V3.19: a line clipped pixel by pixel. -/
theorem test_drawline_clips :
    (nextState (step (State.reset.withFetchWord 40 0x03502E5A32))).map (·.trace) =
      some [c 0xD0#8, c 0x45#8, d 0x40#8, c 0xD1#8, c 0x45#8, d 0x40#8, c 0xD2#8, c 0x45#8, d 0x80#8,
        c 0xD3#8, c 0x45#8, d 0x80#8] := by decide

/-- V4.4: the display after an outline over two banks. -/
theorem test_drawrect_display :
    (nextState (step (State.reset.withFetchWord 40 0x040004030B))).map (·.controller.ddram) =
      some [(0, 0xF0#8), (1, 0x10#8), (2, 0x10#8), (3, 0xF0#8), (84, 0xFF#8), (85, 0x08#8), (86, 0x08#8), (87, 0xFF#8)] := by
  decide

/-- V4.3: operands in the other order: the edge erased is the other one. -/
theorem test_drawrect_reversed_display :
    (nextState (exec (.drawrect 10 5 0 0) State.reset)).map (fun s => (s.controller.ddram.take 3, s.cache)) =
      some ([(0, 0x3F#8), (1, 0x01#8), (2, 0x01#8)], { acc := 0x3F#8, prevx := 0x00#8 }) := by decide

/-- V5.2: leftwards and upwards; column 2 is left out. -/
theorem test_fillrect_leaves_out_x1 :
    (nextState (step (State.reset.withFetchWord 40 0x0505050202))).map (fun s => (s.controller.ddram, s.requests.take 5)) =
      some ([(3, 0x3C#8), (4, 0x3C#8), (5, 0x3C#8)], [(5, 5), (5, 4), (5, 3), (5, 2), (4, 5)]) := by decide

/-- V5.3: no width, nothing done. -/
theorem test_fillrect_zero_width :
    nextState (exec (.fillrect 4 1 4 9) (withCache 0x10#8 0x04#8)) = some (withCache 0x10#8 0x04#8) := by decide

/-! ### Clock -/

/-- A block in the first cycle after it accepted SETPIXEL 5, 3. -/
def busyState : State := cycle (offerPins 0x0205030000#40) State.reset

/-- R6, R7, R25: the first event is offered and cmd_ready is 0; it is not yet delivered. -/
theorem test_clock_offers :
    busyState.outputs false = { cmdReady := false, busy := true, tx := some (c 0x85#8) } ∧ busyState.trace = [] := by decide

/-- R163: a stall, two events, then reset: the prefix stays, the cache is reset. -/
theorem test_clock_reset_cuts :
    let s := cycles [{ readyPins with txReady := false }, readyPins, readyPins, { readyPins with rst := true }, readyPins] busyState
    s.trace = [c 0x85#8, c 0x40#8] ∧ s.cache = { acc := 0x00#8, prevx := 0x00#8 } ∧ s.busy = false := by decide

/-- V5.5 by the clock: six ready cycles are half of its twelve events. -/
theorem test_clock_fill_first_column :
    (cycles (List.replicate 6 readyPins) (cycle (offerPins 0x0552005601#40) State.reset)).trace =
      [c 0xD2#8, c 0x40#8, d 0x01#8, c 0xD2#8, c 0x40#8, d 0x03#8] := by decide +kernel

/-! ### Witnesses: cases that meet the hypotheses of the statements, at the bounds of their ranges -/

theorem witness_DecodeOfEncode :
    WellFormed .clear ∧ WellFormed (.setpixel 255 0) ∧ WellFormed (.drawline 0 255 255 0) ∧
    WellFormed (.drawrect 255 255 0 0) ∧ WellFormed (.fillrect 0 0 255 255) := by decide

theorem witness_EncodeOfDecode :
    decode 0x01FFFFFFFF#40 = .instr .clear ∧ decode 0x0200FF00FF#40 = .instr (.setpixel 0 255) ∧
    decode 0x0300FF00FF#40 = .instr (.drawline 0 255 0 255) ∧ decode 0x0400FF00FF#40 = .instr (.drawrect 0 255 0 255) ∧
    decode 0x0500FF00FF#40 = .instr (.fillrect 0 255 0 255) := by decide

theorem witness_ReservedOpcodes :
    (0x00FFFFFFFF#40).toNat / 2 ^ 32 = 0 ∧ 6 ≤ (0x0600000000#40).toNat / 2 ^ 32 ∧
    1 ≤ (0x0100000000#40).toNat / 2 ^ 32 ∧ (0x05FFFFFFFF#40).toNat / 2 ^ 32 ≤ 5 := by decide

/-- The reset state with a word offered. -/
def offered (w : CmdWord) : State := { State.reset with inputs := [.command w] }

theorem witness_StepRuns :
    (offered 0x0205030000#40).busy = false ∧ (offered 0x0205030000#40).inputs = .command 0x0205030000#40 :: [] ∧
    decode 0x0205030000#40 = .instr (.setpixel 5 3) := by decide

theorem witness_ReservedCommand :
    (offered 0x0900000000#40).busy = false ∧ 6 ≤ (0x0900000000#40).toNat / 2 ^ 32 ∧
    (offered 0x0900000000#40).inputs = .command 0x0900000000#40 :: [] ∧
    (offerPins 0x0900000000#40).rst = false ∧ (offerPins 0x0900000000#40).cmdValid = true ∧
    (offered 0x0000000000#40).busy = false ∧ (0x0000000000#40).toNat / 2 ^ 32 = 0 := by decide

theorem witness_SetpixelRanges :
    (83 < 84 ∧ 47 < 48) ∧ ¬(84 < 84 ∧ 47 < 48) ∧ ¬(83 < 84 ∧ 48 < 48) ∧ (47 : Nat) / 8 = 40 / 8 := by decide

theorem witness_Busy : busyState.busy = true ∧ State.reset.busy = false := by decide

theorem witness_Dropped : (Instr.setpixel 84 0) ≠ .clear ∧ accepted (requestsOf (.setpixel 84 0)) = [] := by decide

theorem witness_CommandsChange :
    accepted (requestsOf (.fillrect 83 47 84 48)) ≠ [] ∧
    (accepted (requestsOf (.drawline 80 46 90 50))).getLast? = some (83, 47) ∧
    (∀ r ∈ requestsOf (.setpixel 5 3), ∀ p, translate r.1 r.2 = some p → 6 ≠ cellKey p.column p.bank) := by
  refine ⟨by decide, by decide, ?_⟩
  intro r hr p hp
  obtain rfl : r = (5, 3) := by simpa [requestsOf] using hr
  obtain rfl : _ = p := Option.some.inj hp
  decide

theorem witness_AccZero : State.reset.cache.acc = 0#8 ∧ accepted (requestsOf (.setpixel 0 0)) ≠ [] := by decide

theorem witness_CacheOfRequests : CacheOfRequests State.reset ∧ CacheOfRequests
    { State.reset with cache := { acc := 0x18#8, prevx := 5#8 }, requests := [(6, 3), (5, 3), (200, 3), (5, 4)] } := by
  unfold CacheOfRequests; decide

theorem witness_LineClauses :
    (0 : Nat) < max (gap 0 2) (gap 0 1) ∧ gap 0 1 ≤ gap 0 2 ∧ gap 0 1 < gap 0 2 ∧ gap 0 2 ≤ gap 0 2 := by decide

theorem witness_LineArithmetic : (lineParams 0 255 255 1).dmaj = 255 ∧ (254 : Nat) ≤ 255 := by decide

theorem witness_LineWhollyOff : ∀ r ∈ lineRequests 84 0 90 3, ¬(r.1 < 84 ∧ r.2 < 48) := by decide

theorem witness_XMajor :
    gap 3 1 ≤ gap 1 5 ∧ 0 < gap 1 5 ∧
    ∀ r, (accepted (lineRequests 1 3 5 1)).head? = some r → r.1 ≠ State.reset.cache.prevx.toNat := by
  refine ⟨by decide, by decide, ?_⟩
  intro r hr
  have h : (accepted (lineRequests 1 3 5 1)).head? = some (1, 3) := by decide
  rw [h] at hr
  obtain rfl := Option.some.inj hr
  decide

theorem witness_FillOneFurther : (2 : Nat) ≤ 2 ∧ (1 : Nat) < 2 ∧ 0 < 1 ∧ (0 : Nat) ≠ 1 := by decide

theorem witness_PixelsArePacked :
    Memory.read ({ State.reset.controller with ddram := [(503, 0x80#8)] } : Controller).ddram (cellKey 83 5) = some 0x80#8 := by
  decide

theorem witness_ControllerClauses :
    (0x80#8).toNat = 128 + (0 : Fin 84).val ∧ (0xD3#8).toNat = 128 + (83 : Fin 84).val ∧ 212 ≤ (0xD4#8).toNat ∧
    (0x40#8).toNat = 64 + (0 : Fin 6).val ∧ (0x45#8).toNat = 64 + (5 : Fin 6).val ∧ 70 ≤ (0x46#8).toNat ∧ (0x7F#8).toNat < 128 ∧
    (0x3F#8).toNat < 64 := by decide

/-- The reset state with a foreign set-bank byte to come. -/
def foreignState : State := { State.reset with inputs := [.foreign (c 0x45#8)] }

theorem witness_Foreign :
    foreignState.inputs = .foreign (c 0x45#8) :: [] ∧
    step foreignState = .next { State.reset with controller := { State.reset.controller with cy := 5 } } := ⟨rfl, rfl⟩

theorem witness_OnlyForeignBytesAreRefused :
    step { foreignState with inputs := [.foreign (c 0x20#8)] } = .refused (.controllerByteOutsideModel (c 0x20#8)) ∧
    step { busyState with inputs := [.foreign (c 0x45#8)] } = .refused .foreignWhileBusy := ⟨rfl, rfl⟩

/-- Source: 93_implementation_defined.md U4: 0x48 is no `0x40 | b` with b < 6, 0x45 is. -/
theorem test_bank_byte_with_high_bits_is_refused :
    State.reset.controller.receive (c 0x48#8) = none ∧
    (State.reset.controller.receive (c 0x45#8)).map (·.cy) = some 5 := by decide

theorem inv_reset_memory : State.reset.controller.ddram.wf = true := rfl

theorem witness_InvBusy : Inv busyState ∧ busyState.busy = true := by
  refine ⟨⟨by decide, by decide, fun r hr => ?_⟩, by decide⟩
  obtain rfl : _ = r := Option.some.inj hr
  exact ⟨_, rfl, by decide, trivial⟩

theorem witness_InvStep : ∃ s t, Inv s ∧ step s = .next t ∧ s.inputs ≠ [] :=
  ⟨{ busyState with inputs := [.clock readyPins] }, _,
    ⟨witness_InvBusy.1.memory, witness_InvBusy.1.prevx, witness_InvBusy.1.operation⟩, rfl, by decide⟩

theorem witness_CommandOfferedWhileBusy :
    let s := { busyState with inputs := [.command 0x0100000000#40] }
    s.busy = true ∧ s.inputs = .command 0x0100000000#40 :: [] := by decide

/-- The hypotheses of the three statements about the clocked block: enough ready cycles, too few, and a reset after. -/
theorem witness_Clocked : ∃ t, exec (.setpixel 5 3) State.reset = .next t ∧ State.reset.busy = false ∧
    (offerPins 0x0205030000#40).rst = false ∧ (offerPins 0x0205030000#40).cmdValid = true ∧
    decode (offerPins 0x0205030000#40).cmd = .instr (.setpixel 5 3) ∧
    quiet [readyPins, { readyPins with txReady := false }, readyPins, readyPins] ∧
    (newEvents State.reset t).length ≤ readyCount [readyPins, { readyPins with txReady := false }, readyPins, readyPins] ∧
    quiet [readyPins] ∧ readyCount [readyPins] < (newEvents State.reset t).length ∧
    ({ readyPins with rst := true } : Pins).rst = true ∧ quiet [] := by
  refine ⟨_, rfl, ?_⟩
  unfold quiet
  decide

end Sys2Proof.Tests
end

section
/-! SUPPORT. Exec, whole (00_scope.md R8): the controller consumes exactly what a command sends; a step with an offered
command is exec; a program is its commands one after the other. -/

namespace Sys2Proof.Machine

open Sys2Proof.Safety

/-- The three events of an accepted request, as the block sends them (41_pixel_write.md R91). -/
theorem pixelEvents_eq_map_event (c : Cache) {x y : Nat} (h : x < 84 ∧ y < 48) :
    pixelEvents c x y =
      [.column ⟨x, h.1⟩, .bank ⟨y / 8, Nat.div_lt_of_lt_mul h.2⟩, .data (accAfter c x y)].map Send.event := rfl

/-- Drawing requests, the controller consumes exactly the events they send (20_memory.md R47, R51). -/
theorem drawAll_controller (s : State) (rs : List Request) :
    s.controller.receiveAll (drawEffect rs s.cache).1 = some (drawAll s rs).controller := by
  induction rs generalizing s with
  | nil => rfl
  | cons r rs ih =>
    obtain ⟨x, y⟩ := r
    have ih := ih (pixel s (x, y))
    by_cases h : x < 84 ∧ y < 48
    · rw [pixel_accepted s h] at ih
      simp only [drawEffect, if_pos h, drawAll_cons, receiveAll_append, pixelEvents_eq_map_event _ h,
        receiveAll_events, Option.bind_some, pixel_accepted s h]
      exact ih
    · rw [pixel_dropped s h] at ih
      simp only [drawEffect, if_neg h, drawAll_cons, pixel_dropped s h]
      exact ih

/-- Sending zero bytes, the controller consumes exactly those. -/
theorem sendZeros_receiveAll (n : Nat) (s : State) :
    s.controller.receiveAll (List.replicate n { mode := .data, value := 0x00#8 }) =
      some (sendZeros n s).controller := by
  induction n generalizing s with
  | zero => rfl
  | succ n ih => exact ih (s.send (.data 0x00#8))

/-- The events of CLEAR: the position (0, 0), then the zero bytes (44_clear.md R130). -/
theorem clearEvents_eq :
    clearEvents = [.column 0, .bank 0].map Send.event ++
      List.replicate Config.cells { mode := .data, value := 0x00#8 } := rfl

/-- Clearing, the controller consumes exactly the events of CLEAR (44_clear.md R130). -/
theorem clear_receiveAll (s : State) :
    s.controller.receiveAll clearEvents = some (sendZeros Config.cells (s.posCur 0 0)).controller := by
  have hpos : s.controller.receiveAll ([.column 0, .bank 0].map Send.event) = some (s.posCur 0 0).controller :=
    receiveAll_events s.controller [.column 0, .bank 0]
  rw [clearEvents_eq, receiveAll_append, hpos, Option.bind_some, sendZeros_receiveAll]

/-- Settles O19: CLEAR by the laws of `sendZeros`, every other command by those of `drawAll`. -/
theorem everyCommandDoesItsExec : Obligations.EveryCommandDoesItsExec := by
  intro i s
  by_cases h : i = .clear
  · subst h
    refine ⟨_, exec_clear s, ?_, sendZeros_cache _ _, clear_receiveAll s, ?_, sendZeros_running _ _,
      sendZeros_inputs _ _⟩
    · rw [sendZeros_trace, posCur_trace, List.append_assoc]
      exact congrArg (s.trace ++ ·) clearEvents_eq.symm
    · rw [sendZeros_requests, posCur_requests]
      exact (List.append_nil _).symm
  · obtain ⟨htrace, hcache⟩ := drawAll_effect s (requestsOf i)
    rw [execEffect_drawing h]
    exact ⟨_, exec_drawing h s, htrace, hcache, drawAll_controller s _, drawAll_requests s _, drawAll_running s _,
      drawAll_inputs s _⟩

/-- Settles O8, by the branches of `step`: the block is idle and the word is a command's. -/
theorem stepRunsTheDecodedCommand : Obligations.StepRunsTheDecodedCommand := by
  intro s w rest i hidle hin hdec
  simp [step, hin, hidle, hdec, State.setInputs]

/-- An idle block offered a word with a reserved opcode takes it and does nothing else (30_encoding.md R64). -/
theorem step_reserved {s : State} {w : CmdWord} {rest : List Input} {op : Byte} (hidle : s.busy = false)
    (hin : s.inputs = .command w :: rest) (hdec : decode w = .reserved op) : step s = .next (s.setInputs rest) := by
  simp [step, hin, hidle, hdec]

/-- A step of an idle block with a word offered has the effect Exec gives the word, and ends idle (00_scope.md R8). -/
theorem step_wordEffect {s : State} {w : CmdWord} {rest : List Input} (hidle : s.busy = false)
    (hin : s.inputs = .command w :: rest) :
    ∃ t, step s = .next t ∧ t.trace = s.trace ++ (wordEffect w s.cache).1 ∧ t.cache = (wordEffect w s.cache).2 ∧
      t.busy = false ∧ t.inputs = rest := by
  cases hdec : decode w with
  | instr i =>
    obtain ⟨t, hexec, htrace, hcache, -, -, hrun, hinputs⟩ := everyCommandDoesItsExec i (s.setInputs rest)
    rw [wordEffect_instr hdec]
    refine ⟨t, (stepRunsTheDecodedCommand s w rest i hidle hin hdec).trans hexec, htrace, hcache, ?_, hinputs⟩
    rw [not_busy_iff, hrun]
    exact (not_busy_iff s).mp hidle
  | reserved op =>
    rw [wordEffect_reserved hdec]
    exact ⟨_, step_reserved hidle hin hdec, (List.append_nil _).symm, rfl, hidle, rfl⟩

/-- A program run from an idle state sends what Exec gives its words, one after the other, and ends idle (R8). -/
theorem run_program (ws : List CmdWord) {s : State} (hidle : s.busy = false) (hin : s.inputs = ws.map .command) :
    ∃ t, Sys2Proof.core.run ws.length s = .next t ∧ t.trace = s.trace ++ (programEffect ws s.cache).1 ∧
      t.cache = (programEffect ws s.cache).2 ∧ t.busy = false ∧ t.inputs = [] := by
  induction ws generalizing s with
  | nil => exact ⟨s, rfl, (List.append_nil _).symm, rfl, hidle, hin⟩
  | cons w ws ih =>
    obtain ⟨u, hstep, hutrace, hucache, huidle, huin⟩ := step_wordEffect hidle hin
    obtain ⟨t, hrun, httrace, htcache, htidle, htin⟩ := ih huidle huin
    rw [programEffect_cons, ← hucache]
    refine ⟨t, (run_succ_next ws.length hstep).trans hrun, ?_, htcache, htidle, htin⟩
    rw [httrace, hutrace, List.append_assoc]

/-- A busy block does not look at what the host offers (60_exceptions.md R144). -/
theorem cycle_busy_ignores_command {s : State} (p : Pins) (w : CmdWord) (hbusy : s.busy = true) :
    cycle { p with cmdValid := true, cmd := w } s = cycle { p with cmdValid := false } s := by
  obtain ⟨r, hr⟩ := (busy_iff_running s).mp hbusy
  simp [cycle, hr]

/-- Settles O20, by induction on the program: each word has its effect from the state the words before it leave. -/
theorem programsSendTheConcatenationOfTheirEvents : Obligations.ProgramsSendTheConcatenationOfTheirEvents :=
  ⟨fun _ p w hbusy => cycle_busy_ignores_command p w hbusy,
    fun s ws hidle => run_program ws (s := withProgram s ws) hidle rfl⟩

end Sys2Proof.Machine
end

section
/-! SUPPORT. The line rasterizer's registers (10_state.md R26) hold what the line computes on integers (42_line.md R101 to
R103): operands of eight bits never leave the registers' widths (R109). -/

namespace Sys2Proof.Machine

open Sys2Proof.Safety

/-- One unit step more toward the end (42_line.md R102). -/
theorem moveCoord_toward (u v n : Nat) : moveCoord (stepNeg u v) (toward u v n) = toward u v (n + 1) := by
  by_cases h : v < u
  · simp [moveCoord, stepNeg, toward, h]; omega
  · simp [moveCoord, stepNeg, toward, h]; omega

/-- A coordinate register does not wrap on its way to the end (R109). -/
theorem moveReg_toward {u v n : Nat} {c : Byte} (hv : v ≤ 255) (hn : n < gap u v)
    (hc : c.toNat = toward u v n) : (moveReg (stepNeg u v) c).toNat = toward u v (n + 1) := by
  unfold gap at hn
  by_cases h : v < u
  · simp [moveReg, stepNeg, toward, h, BitVec.toNat_sub] at hc ⊢; omega
  · simp [moveReg, stepNeg, toward, h, BitVec.toNat_add] at hc ⊢; omega

theorem byte_le (b : Byte) : b.toNat ≤ 255 := Nat.le_of_lt_succ b.isLt

/-- A distance of coordinates is no longer than the larger of the two. -/
theorem gap_le {u v n : Nat} (hu : u ≤ n) (hv : v ≤ n) : gap u v ≤ n := by unfold gap; omega

/-- Which magnitude is the driving one (42_line.md R101). -/
theorem lineParams_axes (x1 y1 x2 y2 : Nat) :
    let p := lineParams x1 y1 x2 y2
    if p.xmajor then gap x1 x2 = p.dmaj ∧ gap y1 y2 = p.dmin else gap x1 x2 = p.dmin ∧ gap y1 y2 = p.dmaj := by
  simp only [lineParams, magnitude_eq_gap]
  split <;> simp_all

theorem lineParams_dmin_le_dmaj (x1 y1 x2 y2 : Nat) :
    (lineParams x1 y1 x2 y2).dmin ≤ (lineParams x1 y1 x2 y2).dmaj := by
  rw [lineParams_dmin, lineParams_dmaj]; omega

/-- The minor axis steps in the advance from `q` (R103). -/
def LineParams.crossesAt (p : LineParams) (q : LinePos) : Bool :=
  crosses p.minorNeg (q.e + 2 * (p.dmin : Int)) p.dmaj

theorem LineParams.advance_eq (p : LineParams) (q : LinePos) :
    p.advance q =
      { x := if p.xmajor || p.crossesAt q then moveCoord p.sxneg q.x else q.x
        y := if !p.xmajor || p.crossesAt q then moveCoord p.syneg q.y else q.y
        e := if p.crossesAt q then q.e + 2 * (p.dmin : Int) - 2 * (p.dmaj : Int) else q.e + 2 * (p.dmin : Int) } := rfl

/-- A minor step is made only from `dmaj` on, and always above it, in either direction (R103). -/
theorem crossesAt_spec (p : LineParams) (q : LinePos) :
    if p.crossesAt q then (p.dmaj : Int) ≤ q.e + 2 * p.dmin else q.e + 2 * p.dmin ≤ p.dmaj := by
  cases hneg : p.minorNeg with
  | true =>
    have hdown : p.crossesAt q = decide ((p.dmaj : Int) < q.e + 2 * p.dmin) := by
      simp [LineParams.crossesAt, crosses, hneg]
    simp only [hdown, decide_eq_true_eq]
    split <;> omega
  | false =>
    have hup : p.crossesAt q = decide ((p.dmaj : Int) ≤ q.e + 2 * p.dmin) := by
      simp [LineParams.crossesAt, crosses, hneg]
    simp only [hup, decide_eq_true_eq]
    split <;> omega

/-- Where a line stands after `k` advances, `m` of them with a minor step: each coordinate has made its steps toward its
end, and the error term is what they leave, at most `dmaj` in size (42_line.md R103, R104). -/
structure LineAt (x1 y1 x2 y2 k m : Nat) (q : LinePos) : Prop where
  x : q.x = toward x1 x2 (if (lineParams x1 y1 x2 y2).xmajor then k else m)
  y : q.y = toward y1 y2 (if (lineParams x1 y1 x2 y2).xmajor then m else k)
  e : q.e = 2 * (k * (lineParams x1 y1 x2 y2).dmin : Nat) - 2 * (m * (lineParams x1 y1 x2 y2).dmaj : Nat)
  e_le : q.e.natAbs ≤ (lineParams x1 y1 x2 y2).dmaj

theorem LineAt.start (x1 y1 x2 y2 : Nat) : LineAt x1 y1 x2 y2 0 0 { x := x1, y := y1, e := 0 } where
  x := by simp [toward]
  y := by simp [toward]
  e := by simp
  e_le := by simp

/-- An advance is one driving step, and a minor step when the error term crosses (R103). -/
theorem LineAt.advance {x1 y1 x2 y2 k m : Nat} {q : LinePos} (h : LineAt x1 y1 x2 y2 k m q) :
    LineAt x1 y1 x2 y2 (k + 1) (if (lineParams x1 y1 x2 y2).crossesAt q then m + 1 else m)
      ((lineParams x1 y1 x2 y2).advance q) := by
  have hcross := crossesAt_spec (lineParams x1 y1 x2 y2) q
  have hd := lineParams_dmin_le_dmaj x1 y1 x2 y2
  have hsx : (lineParams x1 y1 x2 y2).sxneg = stepNeg x1 x2 := rfl
  have hsy : (lineParams x1 y1 x2 y2).syneg = stepNeg y1 y2 := rfl
  obtain ⟨hx, hy, he, hle⟩ := h
  constructor <;> rw [LineParams.advance_eq] <;> generalize lineParams x1 y1 x2 y2 = p at *
  case x => rw [hx, hsx]; cases p.xmajor <;> cases p.crossesAt q <;> simp [moveCoord_toward]
  case y => rw [hy, hsy]; cases p.xmajor <;> cases p.crossesAt q <;> simp [moveCoord_toward]
  case e =>
    simp only [he, Nat.add_mul]
    cases p.crossesAt q <;> simp [Nat.add_mul] <;> omega
  case e_le => cases hm : p.crossesAt q <;> simp [hm] at hcross ⊢ <;> omega

/-- No more minor steps are made than the minor magnitude (R104). -/
theorem LineAt.minor_le {x1 y1 x2 y2 k m : Nat} {q : LinePos} (h : LineAt x1 y1 x2 y2 k m q)
    (hpos : 0 < (lineParams x1 y1 x2 y2).dmaj) (hk : k ≤ (lineParams x1 y1 x2 y2).dmaj) :
    m ≤ (lineParams x1 y1 x2 y2).dmin := by
  have he := h.e
  have hle := h.e_le
  generalize lineParams x1 y1 x2 y2 = p at *
  by_contra hm
  have hlow : (p.dmin + 1) * p.dmaj ≤ m * p.dmaj := Nat.mul_le_mul_right _ (by omega)
  have hhigh : k * p.dmin ≤ p.dmaj * p.dmin := Nat.mul_le_mul_right _ hk
  rw [Nat.add_mul, Nat.mul_comm p.dmin] at hlow
  omega

/-- The registers hold the line's parameters, its position `q` and the number `k` of advances made (10_state.md R26). -/
structure LineRegs.Holds (l : LineRegs) (p : LineParams) (k : Nat) (q : LinePos) : Prop where
  curx : l.curx.toNat = q.x
  cury : l.cury.toNat = q.y
  dmaj : l.dmaj.toNat = p.dmaj
  dmin : l.dmin.toNat = p.dmin
  xmaj : l.xmaj = p.xmajor
  sxneg : l.sxneg = p.sxneg
  syneg : l.syneg = p.syneg
  err : l.err.toInt = q.e
  iter : l.iter.toNat = k

theorem lineParams_dmaj_le (x1 y1 x2 y2 : Byte) :
    (lineParams x1.toNat y1.toNat x2.toNat y2.toNat).dmaj ≤ 255 := by
  rw [lineParams_dmaj]
  exact max_le (gap_le (byte_le x1) (byte_le x2)) (gap_le (byte_le y1) (byte_le y2))

theorem LineRegs.start_holds (x1 y1 x2 y2 : Byte) :
    (LineRegs.start x1 y1 x2 y2).Holds (lineParams x1.toNat y1.toNat x2.toNat y2.toNat) 0
      { x := x1.toNat, y := y1.toNat, e := 0 } := by
  have hmaj := lineParams_dmaj_le x1 y1 x2 y2
  have hmin := lineParams_dmin_le_dmaj x1.toNat y1.toNat x2.toNat y2.toNat
  constructor <;> simp [LineRegs.start] <;> omega

/-- Advances are left exactly when fewer than `dmaj` are made (42_line.md R105). -/
theorem LineRegs.Holds.more_iff {l : LineRegs} {p : LineParams} {k : Nat} {q : LinePos} (h : l.Holds p k q) :
    l.more = true ↔ k < p.dmaj := by
  simp [LineRegs.more, h.iter, h.dmaj]

/-- A byte register read in the eleven bits of the error register. -/
theorem toInt_widen (b : Byte) : (b.setWidth 11).toInt = b.toNat := by
  simp [BitVec.toInt_eq_toNat_cond]; omega

/-- Twice a byte fits the eleven bits of the error register (R109). -/
theorem toInt_widen_double (b : Byte) : (b.setWidth 11 <<< 1).toInt = 2 * b.toNat := by
  simp [BitVec.toInt_eq_toNat_cond, BitVec.toNat_shiftLeft, Nat.shiftLeft_eq]; omega

/-- The error register does not overflow when `2·dmin` is added (R109). -/
theorem LineRegs.Holds.err_add {l : LineRegs} {p : LineParams} {k : Nat} {q : LinePos} (h : l.Holds p k q)
    (hle : q.e.natAbs ≤ 255) : (l.err + (l.dmin.setWidth 11 <<< 1)).toInt = q.e + 2 * (p.dmin : Int) := by
  have hd := byte_le l.dmin
  rw [h.dmin] at hd
  rw [BitVec.toInt_add, toInt_widen_double, h.err, h.dmin]
  exact Int.bmod_eq_of_le (by omega) (by omega)

/-- The registers decide the minor step as the line does (R103). -/
theorem LineRegs.Holds.crosses_eq {l : LineRegs} {p : LineParams} {k : Nat} {q : LinePos} (h : l.Holds p k q)
    (hle : q.e.natAbs ≤ 255) : l.crosses (l.err + (l.dmin.setWidth 11 <<< 1)) = p.crossesAt q := by
  simp only [LineRegs.crosses, BitVec.slt, BitVec.sle, toInt_widen, h.err_add hle, h.dmaj, h.xmaj, h.sxneg, h.syneg,
    LineParams.crossesAt, Machine.crosses, LineParams.minorNeg]
  rfl

theorem LineRegs.advance_eq (l : LineRegs) :
    l.advance =
      let e := l.err + (l.dmin.setWidth 11 <<< 1)
      { l with
        curx := if l.xmaj || l.crosses e then moveReg l.sxneg l.curx else l.curx
        cury := if !l.xmaj || l.crosses e then moveReg l.syneg l.cury else l.cury
        err := if l.crosses e then e - (l.dmaj.setWidth 11 <<< 1) else e
        iter := l.iter + 1#9 } := rfl

/-- A coordinate register moved as its coordinate is: `n` steps are made, `n'` after the advance. -/
theorem moveReg_step {u v n n' : Nat} {c : Byte} (b : Bool) (hv : v ≤ 255) (hn : n' ≤ gap u v)
    (hb : n' = if b then n + 1 else n) (hc : c.toNat = toward u v n) :
    (if b then moveReg (stepNeg u v) c else c).toNat = toward u v n' := by
  cases b
  · simpa [hb] using hc
  · simp only [if_true] at hb ⊢
    rw [hb]
    exact moveReg_toward hv (by omega) hc

/-- Each axis has made no more steps than its magnitude (R109). -/
theorem LineAt.steps_le {x1 y1 x2 y2 k m : Nat} {q : LinePos} (h : LineAt x1 y1 x2 y2 k m q)
    (hpos : 0 < (lineParams x1 y1 x2 y2).dmaj) (hk : k ≤ (lineParams x1 y1 x2 y2).dmaj) :
    (if (lineParams x1 y1 x2 y2).xmajor then k else m) ≤ gap x1 x2 ∧
    (if (lineParams x1 y1 x2 y2).xmajor then m else k) ≤ gap y1 y2 := by
  have hm := h.minor_le hpos hk
  have haxes := lineParams_axes x1 y1 x2 y2
  cases hmaj : (lineParams x1 y1 x2 y2).xmajor with
  | true => simp only [hmaj, if_true] at haxes ⊢; omega
  | false => simp only [hmaj, Bool.false_eq_true, if_false] at haxes ⊢; omega

/-- One advance of the registers is one advance of the line (R103, R109). -/
theorem LineRegs.Holds.advance {x1 y1 x2 y2 k m : Nat} {l : LineRegs} {q : LinePos}
    (hx1 : x1 ≤ 255) (hy1 : y1 ≤ 255) (hx2 : x2 ≤ 255) (hy2 : y2 ≤ 255)
    (hat : LineAt x1 y1 x2 y2 k m q) (h : l.Holds (lineParams x1 y1 x2 y2) k q)
    (hk : k < (lineParams x1 y1 x2 y2).dmaj) :
    l.advance.Holds (lineParams x1 y1 x2 y2) (k + 1) ((lineParams x1 y1 x2 y2).advance q) := by
  have hnext := hat.advance
  have hmaj : (lineParams x1 y1 x2 y2).dmaj ≤ 255 := by
    rw [lineParams_dmaj]; exact max_le (gap_le hx1 hx2) (gap_le hy1 hy2)
  have hmin := lineParams_dmin_le_dmaj x1 y1 x2 y2
  have hle : q.e.natAbs ≤ 255 := hat.e_le.trans hmaj
  have hcross := h.crosses_eq hle
  obtain ⟨hxs, hys⟩ := hnext.steps_le (by omega) hk
  have hx := h.curx.trans hat.x
  have hy := h.cury.trans hat.y
  constructor <;> rw [LineRegs.advance_eq] <;> dsimp only
  case curx =>
    rw [hnext.x, hcross, h.xmaj, h.sxneg]
    refine moveReg_step _ hx2 hxs ?_ hx
    cases (lineParams x1 y1 x2 y2).xmajor <;> simp
  case cury =>
    rw [hnext.y, hcross, h.xmaj, h.syneg]
    refine moveReg_step _ hy2 hys ?_ hy
    cases (lineParams x1 y1 x2 y2).xmajor <;> simp
  case err =>
    rw [hcross, LineParams.advance_eq]
    have hspec := crossesAt_spec (lineParams x1 y1 x2 y2) q
    cases hm : (lineParams x1 y1 x2 y2).crossesAt q
    · exact h.err_add hle
    · simp only [hm, if_true] at hspec ⊢
      rw [BitVec.toInt_sub, h.err_add hle, toInt_widen_double, h.dmaj]
      exact Int.bmod_eq_of_le (by omega) (by omega)
  case iter => rw [BitVec.toNat_add, h.iter, BitVec.toNat_ofNat]; omega
  case dmaj => exact h.dmaj
  case dmin => exact h.dmin
  case xmaj => exact h.xmaj
  case sxneg => exact h.sxneg
  case syneg => exact h.syneg

end Sys2Proof.Machine
end

section
/-! SUPPORT. The requests the working registers of a drawing operation make, one after the other, are those of its command
(10_state.md R26; 42_line.md R101, 43_rectangles.md R115, R120). -/

namespace Sys2Proof.Machine

open Sys2Proof.Safety

/-- The operation with the operands latched in `r` makes exactly these requests, from the registers given on; with no
registers given it is over and makes none. -/
inductive Draw.Makes (r : Running) : Option Draw → List Request → Prop
  | over : Draw.Makes r none []
  | request {d : Draw} {rs : List Request} : Draw.Makes r (d.next r) rs → Draw.Makes r (some d) (d.request :: rs)

section
variable {r : Running} {f : LineRegs → Draw} {after : Option Draw} {rest : List Request} {x1 y1 x2 y2 : Byte}

/-- A line with `n` advances to go makes its remaining requests and then those of what follows it. -/
theorem Draw.makes_lineFrom (hreq : ∀ l, (f l).request = (l.curx.toNat, l.cury.toNat))
    (hnext : ∀ l, (f l).next r = if l.more then some (f l.advance) else after) (hafter : Draw.Makes r after rest)
    {k m n : Nat} {q : LinePos} {l : LineRegs} (hat : LineAt x1.toNat y1.toNat x2.toNat y2.toNat k m q)
    (hl : l.Holds (lineParams x1.toNat y1.toNat x2.toNat y2.toNat) k q)
    (hn : k + n = (lineParams x1.toNat y1.toNat x2.toNat y2.toNat).dmaj) :
    Draw.Makes r (some (f l)) (lineFrom (lineParams x1.toNat y1.toNat x2.toNat y2.toNat) n q ++ rest) := by
  have hhead : (q.x, q.y) = (f l).request := by rw [hreq, hl.curx, hl.cury]
  induction n generalizing k m q l with
  | zero =>
    have hmore : ¬l.more = true := by rw [hl.more_iff]; omega
    rw [lineFrom, List.singleton_append, hhead]
    refine .request ?_
    rwa [hnext, if_neg hmore]
  | succ n ih =>
    have hk : k < (lineParams x1.toNat y1.toNat x2.toNat y2.toNat).dmaj := by omega
    have hadv := hl.advance (byte_le x1) (byte_le y1) (byte_le x2) (byte_le y2) hat hk
    rw [lineFrom, List.cons_append, hhead]
    refine .request ?_
    rw [hnext, if_pos (hl.more_iff.mpr hk)]
    exact ih hat.advance hadv (by omega) (by rw [hreq, hadv.curx, hadv.cury])

/-- A line just loaded makes the requests of the line and then those of what follows it (42_line.md R101). -/
theorem Draw.makes_line (hreq : ∀ l, (f l).request = (l.curx.toNat, l.cury.toNat))
    (hnext : ∀ l, (f l).next r = if l.more then some (f l.advance) else after) (hafter : Draw.Makes r after rest) :
    Draw.Makes r (some (f (.start x1 y1 x2 y2))) (lineRequests x1.toNat y1.toNat x2.toNat y2.toNat ++ rest) :=
  Draw.makes_lineFrom hreq hnext hafter (LineAt.start _ _ _ _) (LineRegs.start_holds x1 y1 x2 y2) (Nat.zero_add _)

end

/-- What follows edge `edge` of an outline: the next edge, or nothing (43_rectangles.md R116). -/
def edgeAfter (r : Running) (edge : BitVec 2) : Option Draw :=
  if edge = 3#2 then none else some (.rect (edge + 1#2) (edgeLine r (edge + 1#2)))

/-- One edge of an outline, then what follows it. -/
theorem Draw.makes_edge {r : Running} {edge : BitVec 2} {x1 y1 x2 y2 : Byte} {rest : List Request}
    (hedge : edgeLine r edge = .start x1 y1 x2 y2) (hafter : Draw.Makes r (edgeAfter r edge) rest) :
    Draw.Makes r (some (.rect edge (edgeLine r edge))) (lineRequests x1.toNat y1.toNat x2.toNat y2.toNat ++ rest) := by
  rw [hedge]
  exact Draw.makes_line (f := .rect edge) (fun _ => rfl) (fun _ => rfl) hafter

/-- DRAWRECT's registers make the requests of the outline, edge after edge (R115, R116). -/
theorem Draw.makes_rect (r : Running) :
    Draw.Makes r (some (.rect 0#2 (edgeLine r 0#2)))
      (rectRequests r.opa.toNat r.opb.toNat r.opc2.toNat r.opd.toNat) := by
  have h3 := Draw.makes_edge (r := r) (edge := 3#2) rfl .over
  have h2 := Draw.makes_edge (r := r) (edge := 2#2) rfl h3
  have h1 := Draw.makes_edge (r := r) (edge := 1#2) rfl h2
  have h0 := Draw.makes_edge (r := r) (edge := 0#2) rfl h1
  simpa [rectRequests] using h0

/-- The block draws a fill's columns without the one at x1 (43_rectangles.md R121). -/
theorem fillCount_eq_gap (x0 x1 : Nat) : fillCount Config.fillIncludeX1 x0 x1 = gap x0 x1 := by
  simp [fillCount, Config.fillIncludeX1, magnitude_eq_gap]

/-- The columns of a fill are its steps toward x1 (R120). -/
theorem fillColumns_eq (x0 x1 : Nat) :
    fillColumns Config.fillIncludeX1 x0 x1 = (List.range (gap x0 x1)).map (toward x0 x1) := by
  rw [fillColumns, fillCount_eq_gap]
  refine List.map_congr_left fun k _ => ?_
  simp [fillColumn, stepNeg, toward]

/-- FILLRECT's registers at column `j`, with `n` more to go after it, make the requests of those columns (R120). -/
theorem Draw.makes_fillFrom {r : Running} {n j : Nat} {x : Byte} (hx : x.toNat = toward r.opa.toNat r.opc2.toNat j)
    (hn : j + (n + 1) = gap r.opa.toNat r.opc2.toNat) :
    Draw.Makes r (some (.fill (BitVec.ofNat 8 (n + 1)) x (columnLine r x)))
      (((List.range' j (n + 1)).map (toward r.opa.toNat r.opc2.toNat)).flatMap fun c =>
        lineRequests c r.opb.toNat c r.opd.toNat) := by
  have hgap := gap_le (byte_le r.opa) (byte_le r.opc2)
  induction n generalizing j x with
  | zero =>
    rw [List.range'_succ, List.map_cons, List.flatMap_cons, ← hx]
    exact Draw.makes_line (f := .fill (BitVec.ofNat 8 1) x) (fun _ => rfl) (fun _ => rfl) .over
  | succ n ih =>
    have hcount : ¬(BitVec.ofNat 8 (n + 1 + 1)).toNat ≤ 1 := by simp; omega
    have hless : BitVec.ofNat 8 (n + 1 + 1) - 1#8 = BitVec.ofNat 8 (n + 1) := by
      apply BitVec.eq_of_toNat_eq; simp [BitVec.toNat_sub]; omega
    have hmove := moveReg_toward (byte_le r.opc2) (by omega : j < gap r.opa.toNat r.opc2.toNat) hx
    rw [List.range'_succ, List.map_cons, List.flatMap_cons, ← hx]
    refine Draw.makes_line (f := .fill (BitVec.ofNat 8 (n + 1 + 1)) x) (fun _ => rfl) (fun _ => ?_) (ih hmove (by omega))
    simp only [Draw.next, if_neg hcount, hless]

/-- FILLRECT's registers make the requests of the fill, column after column (R120). -/
theorem Draw.makes_fill {r : Running} {n : Nat} (hn : n + 1 = gap r.opa.toNat r.opc2.toNat) :
    Draw.Makes r (some (.fill (BitVec.ofNat 8 (n + 1)) r.opa (columnLine r r.opa)))
      (fillRequests Config.fillIncludeX1 r.opa.toNat r.opb.toNat r.opc2.toNat r.opd.toNat) := by
  rw [fillRequests, fillColumns_eq, List.range_eq_range', ← hn]
  exact Draw.makes_fillFrom (by simp [toward]) (by omega)

/-- A fill makes one request a row in each of its columns (R120). -/
theorem fillRequests_length (x0 y0 x1 y1 : Nat) :
    (fillRequests Config.fillIncludeX1 x0 y0 x1 y1).length = gap x0 x1 * (gap y0 y1 + 1) := by
  simp [fillRequests, fillColumns_eq, List.length_flatMap, Function.comp_def, gap]

/-- No command makes more requests than the most the rule gives (60_exceptions.md R140). -/
theorem requestsOf_length_le {i : Instr} (h : WellFormed i) : (requestsOf i).length ≤ Config.maxRequests := by
  have hle : ∀ n ∈ operandsOf i, n ≤ 255 := fun n hn => Nat.le_of_lt_succ ((wellFormed_iff i).mp h n hn)
  rw [show Config.maxRequests = 65280 from rfl]
  cases i with
  | clear => simp [requestsOf]
  | setpixel x y => simp [requestsOf]
  | drawline x1 y1 x2 y2 =>
    simp only [operandsOf, List.forall_mem_cons] at hle
    obtain ⟨h1, h2, h3, h4, -⟩ := hle
    have hx := gap_le h1 h3
    have hy := gap_le h2 h4
    simp only [requestsOf, lineRequests_length]
    omega
  | drawrect l t r b =>
    simp only [operandsOf, List.forall_mem_cons] at hle
    obtain ⟨h1, h2, h3, h4, -⟩ := hle
    have hx := gap_le h1 h3
    have hy := gap_le h2 h4
    have hzero : ∀ u, gap u u = 0 := fun u => by simp [gap]
    simp only [requestsOf, rectRequests, List.length_append, lineRequests_length, hzero]
    omega
  | fillrect x0 y0 x1 y1 =>
    simp only [operandsOf, List.forall_mem_cons] at hle
    obtain ⟨h1, h2, h3, h4, -⟩ := hle
    rw [requestsOf, fillRequests_length]
    exact Nat.mul_le_mul (gap_le h1 h3) (Nat.succ_le_succ (gap_le h2 h4))

end Sys2Proof.Machine
end

section
/-! SUPPORT. The clocked block delivers the events of its command one after the other and ends in the state exec gives
(00_scope.md R8, 10_state.md R25, R35). -/

namespace Sys2Proof.Machine

open Sys2Proof.Safety

/-- From the first state the operation under way delivers exactly these events, one each time the transport is ready, and
the block is then idle in the last state. -/
inductive Delivers : State → List Send → State → Prop
  | idle {s : State} : s.running = none → Delivers s [] s
  | event {s t : State} {r : Running} {e : Send} {es : List Send} :
      s.running = some r → r.offer s.cache = some e → Delivers (afterEvent r (s.send e)) es t →
      Delivers s (e :: es) t

@[simp] theorem readyCount_nil : readyCount [] = 0 := rfl

theorem readyCount_cons_ready {p : Pins} (ps : List Pins) (h : p.txReady = true) :
    readyCount (p :: ps) = readyCount ps + 1 := by
  simp [readyCount, h]

theorem readyCount_cons_stall {p : Pins} (ps : List Pins) (h : p.txReady = false) :
    readyCount (p :: ps) = readyCount ps := by
  simp [readyCount, h]

theorem quiet_cons {p : Pins} {ps : List Pins} :
    quiet (p :: ps) ↔ (p.rst = false ∧ p.cmdValid = false) ∧ quiet ps :=
  List.forall_mem_cons

/-- With the transport ready often enough, whatever the stalls, the operation is done (60_exceptions.md R155). -/
theorem Delivers.cycles_eq {s t : State} {es : List Send} {ps : List Pins} (h : Delivers s es t) (hq : quiet ps)
    (hready : es.length ≤ readyCount ps) : cycles ps s = t := by
  induction ps generalizing s es with
  | nil =>
    cases h with
    | idle _ => rfl
    | event _ _ _ => simp at hready
  | cons p ps ih =>
    obtain ⟨⟨hrst, hvalid⟩, hq⟩ := quiet_cons.mp hq
    rw [cycles_cons]
    cases h with
    | idle hidle =>
      rw [cycle_idle hrst hvalid hidle]
      exact ih (.idle hidle) hq (Nat.zero_le _)
    | event hr he hrest =>
      cases hp : p.txReady with
      | false =>
        rw [readyCount_cons_stall ps hp] at hready
        rw [cycle_stall hrst hp hr he]
        exact ih (.event hr he hrest) hq hready
      | true =>
        rw [readyCount_cons_ready ps hp, List.length_cons] at hready
        rw [cycle_deliver hrst hp hr he]
        exact ih hrest hq (Nat.le_of_succ_le_succ hready)

/-- Going on to the next request or byte sends nothing of itself. -/
theorem proceed_trace (r : Running) (s : State) : (proceed r s).trace = s.trace := by
  unfold proceed
  split
  · split <;> rfl
  · split
    · exact (takeUp_cases _ _ _ _).1
    · rfl

theorem afterEvent_trace (r : Running) (s : State) : (afterEvent r s).trace = s.trace := by
  unfold afterEvent
  split
  · rfl
  · rfl
  · exact proceed_trace _ s
  · exact proceed_trace _ s

/-- The events delivered are what joins the trace (00_scope.md R13, R14 (a)). -/
theorem Delivers.trace {s t : State} {es : List Send} (h : Delivers s es t) :
    t.trace = s.trace ++ es.map Send.event := by
  induction h with
  | idle _ => simp
  | event _ _ _ ih => rw [ih, afterEvent_trace, send_trace, List.append_assoc]; rfl

/-! ### What a drawing operation delivers -/

/-- Drawing does not look at the running operation. -/
theorem pixel_with_running (s : State) (q : Request) (ro : Option Running) :
    pixel { s with running := ro } q = { pixel s q with running := ro } := by
  unfold pixel
  cases translate q.1 q.2 <;> rfl

theorem drawAll_with_running (s : State) (rs : List Request) (ro : Option Running) :
    drawAll { s with running := ro } rs = { drawAll s rs with running := ro } := by
  induction rs generalizing s with
  | nil => rfl
  | cons q rs ih => rw [drawAll_cons, pixel_with_running, ih, drawAll_cons]

theorem pixel_of_translate_none (s : State) {q : Request} (h : translate q.1 q.2 = none) : pixel s q = s.note q := by
  simp [pixel, h]

section
variable {r : Running} {d : Draw} {fuel : Nat}

theorem takeUp_inRange (s : State) {p : Place} (h : translate d.request.1 d.request.2 = some p) :
    takeUp fuel r d s =
      { s.note d.request with
        cache := s.cache.build p, running := some { r with txphase := .column, engine := .draw d } } := by
  rw [takeUp.eq_def]
  simp only [h]
  rfl

theorem takeUp_dropped_last (s : State) (h : translate d.request.1 d.request.2 = none) (hn : d.next r = none) :
    takeUp fuel r d s = { s.note d.request with running := none } := by
  cases fuel <;> simp [takeUp, h, hn]

theorem takeUp_dropped_next (s : State) {d' : Draw} (h : translate d.request.1 d.request.2 = none)
    (hn : d.next r = some d') : takeUp (fuel + 1) r d s = takeUp fuel r d' (s.note d.request) := by
  simp [takeUp, h, hn]

/-- Which request follows depends on the latched operands alone. -/
theorem Draw.next_latches (ph : TxPhase) (en : Engine) : d.next { r with txphase := ph, engine := en } = d.next r := by
  cases d <;> rfl

/-- Taking up requests depends on the latched operands alone, not on TXPHASE nor on what the registers held before. -/
theorem takeUp_latches (ph : TxPhase) (en : Engine) (ro : Option Running) (s : State) :
    takeUp fuel { r with txphase := ph, engine := en } d { s with running := ro } = takeUp fuel r d s := by
  induction fuel generalizing d s with
  | zero => unfold takeUp; cases translate d.request.1 d.request.2 <;> simp [State.note]
  | succ fuel ih =>
    cases htr : translate d.request.1 d.request.2 with
    | some p => rw [takeUp_inRange _ htr, takeUp_inRange _ htr]; rfl
    | none =>
      cases hn : d.next r with
      | none => rw [takeUp_dropped_last _ htr hn, takeUp_dropped_last _ htr ((Draw.next_latches ph en).trans hn)]; rfl
      | some d' =>
        rw [takeUp_dropped_next _ htr hn, takeUp_dropped_next _ htr ((Draw.next_latches ph en).trans hn)]
        exact ih (s.note d.request)

end

/-- The operation goes on from the request its registers stand at; it is over when there is none. -/
def goOn (r : Running) : Option Draw → State → State
  | some d, s => takeUp Config.maxRequests r d s
  | none, s => { s with running := none }

theorem goOn_with_running (r : Running) (o : Option Draw) (s : State) (ro : Option Running) :
    goOn r o { s with running := ro } = goOn r o s := by
  cases o with
  | none => rfl
  | some d => exact takeUp_latches r.txphase r.engine ro s

/-- When the pixel of a drawing operation is finished, its x becomes PREVX and the operation goes on after it
(41_pixel_write.md R91). -/
theorem proceed_draw (r : Running) (d : Draw) (s : State) :
    proceed { r with txphase := .done, engine := .draw d } s =
      goOn r (d.next r) { s with cache := s.cache.record (BitVec.ofNat 8 d.request.1) } := by
  simp only [proceed, Draw.next_latches]
  cases d.next r with
  | none => rfl
  | some d' =>
    exact takeUp_latches .done (.draw d) s.running { s with cache := s.cache.record (BitVec.ofNat 8 d.request.1) }

theorem translate_column {x y : Nat} {p : Place} (h : translate x y = some p) : p.column.val = x := by
  unfold translate at h
  split at h
  · cases h; rfl
  · cases h

/-- A request in range is noted, its three events are sent with ACC built, and its x is recorded (R91). -/
theorem pixel_of_translate_some (s : State) {q : Request} {p : Place} (h : translate q.1 q.2 = some p) :
    pixel s q =
      { ((s.note q).posCur p.column p.bank).send (.data (s.cache.build p).acc) with
        cache := (s.cache.build p).record (BitVec.ofNat 8 q.1) } := by
  simp only [pixel, h, translate_column h]
  rfl

/-- The three events of a request in range, and then those of the requests after it (R91). -/
theorem delivers_pixel {r : Running} {d : Draw} {p : Place} {s t : State} {es : List Send}
    (h : translate d.request.1 d.request.2 = some p) (hrest : Delivers (goOn r (d.next r) (pixel s d.request)) es t)
    (fuel : Nat) :
    Delivers (takeUp fuel r d s) (.column p.column :: .bank p.bank :: .data (s.cache.build p).acc :: es) t := by
  rw [takeUp_inRange s h]
  refine .event rfl (by simp [Running.offer, h]) (.event rfl (by simp [Running.offer, h]) (.event rfl rfl ?_))
  simp only [afterEvent, proceed_draw]
  rw [pixel_of_translate_some s h, ← goOn_with_running] at hrest
  exact hrest

/-- An operation that makes the requests `rs` delivers what ends in the state with `rs` drawn (00_scope.md R2). -/
theorem takeUp_delivers {r : Running} {rs : List Request} {d : Draw} {fuel : Nat} {s : State}
    (h : Draw.Makes r (some d) rs) (hlen : rs.length ≤ fuel + 1) (hfuel : fuel ≤ Config.maxRequests) :
    ∃ es, Delivers (takeUp fuel r d s) es { drawAll s rs with running := none } := by
  induction rs generalizing d fuel s with
  | nil => cases h
  | cons q rs ih =>
    cases h with
    | request h =>
    cases htr : translate d.request.1 d.request.2 with
    | none =>
      rw [drawAll_cons, pixel_of_translate_none s htr]
      cases hn : d.next r with
      | none =>
        rw [hn] at h
        cases h
        rw [takeUp_dropped_last s htr hn]
        exact ⟨[], .idle rfl⟩
      | some d' =>
        rw [hn] at h
        cases fuel with
        | zero => cases h; simp at hlen
        | succ fuel =>
          rw [takeUp_dropped_next s htr hn]
          exact ih h (Nat.le_of_succ_le_succ hlen) (Nat.le_of_succ_le hfuel)
    | some p =>
      have hgo : ∃ es, Delivers (goOn r (d.next r) (pixel s d.request)) es
          { drawAll (pixel s d.request) rs with running := none } := by
        cases hn : d.next r with
        | none => rw [hn] at h; cases h; exact ⟨[], .idle rfl⟩
        | some d' => rw [hn] at h; exact ih h (by simp at hlen; omega) le_rfl
      obtain ⟨es, hes⟩ := hgo
      exact ⟨_, delivers_pixel htr hes fuel⟩

/-- The same for an operation that may have no request. -/
theorem goOn_delivers {r : Running} {o : Option Draw} {rs : List Request} (s : State) (h : Draw.Makes r o rs)
    (hlen : rs.length ≤ Config.maxRequests) :
    ∃ es, Delivers (goOn r o s) es { drawAll s rs with running := none } := by
  cases o with
  | none => cases h; exact ⟨[], .idle rfl⟩
  | some d => exact takeUp_delivers h (Nat.le_succ_of_le hlen) le_rfl

/-! ### What CLEAR delivers -/

theorem sendZeros_with_running (n : Nat) (s : State) (ro : Option Running) :
    sendZeros n { s with running := ro } = { sendZeros n s with running := ro } := by
  induction n generalizing s with
  | zero => rfl
  | succ n ih => exact ih (s.send (.data 0x00#8))

/-- The clear engine with `n + 1` bytes to go delivers them (44_clear.md R130). -/
theorem delivers_zeros {r : Running} {c : BitVec 9} {n : Nat} {s : State} (hc : c.toNat + (n + 1) = Config.cells)
    (hs : s.running = some { r with txphase := .data, engine := .clear c }) :
    Delivers s (List.replicate (n + 1) (.data 0x00#8)) { sendZeros (n + 1) s with running := none } := by
  induction n generalizing c s with
  | zero =>
    refine .event hs rfl ?_
    have hlast : ¬c.toNat + 1 < Config.cells := by omega
    simp only [afterEvent, proceed, if_neg hlast]
    exact .idle rfl
  | succ n ih =>
    refine .event hs rfl ?_
    have hmore : c.toNat + 1 < Config.cells := by omega
    have hnext : (c + 1#9).toNat = c.toNat + 1 := by
      have hcells : Config.cells = 504 := rfl
      rw [BitVec.toNat_add, BitVec.toNat_ofNat]; omega
    simp only [afterEvent, proceed, if_pos hmore]
    have hrest := ih (c := c + 1#9) (s := { s.send (.data 0x00#8) with
      running := some { r with txphase := .data, engine := .clear (c + 1#9) } }) (by omega) rfl
    rw [sendZeros_with_running] at hrest
    exact hrest

/-- A command word's fields, latched at acceptance (10_state.md R26). -/
def latch (w : CmdWord) : Running :=
  { opc := fieldOp w, opa := fieldA w, opb := fieldB w, opc2 := fieldC w, opd := fieldD w
    txphase := .column, engine := .clear 0#9 }

theorem accept_clear {w : CmdWord} (s : State) (h : decode w = .instr .clear) :
    accept w s = { s with running := some (latch w) } := by
  simp [accept, h, latch]

/-- CLEAR, accepted, delivers its 506 events and ends in the state exec gives. -/
theorem clear_delivers {w : CmdWord} (s : State) (h : decode w = .instr .clear) :
    ∃ es, Delivers (accept w s) es { sendZeros Config.cells (s.posCur 0 0) with running := none } := by
  obtain ⟨n, hn⟩ : ∃ n, Config.cells = n + 1 := ⟨503, rfl⟩
  have hzeros := delivers_zeros (r := latch w) (c := 0#9) (n := n)
    (s := { s.posCur 0 0 with running := some { latch w with txphase := .data } }) (by simp [hn]) rfl
  rw [accept_clear s h, hn]
  rw [sendZeros_with_running] at hzeros
  exact ⟨_, .event rfl rfl (.event rfl rfl hzeros)⟩

/-! ### Acceptance -/

/-- The operands of a decoded command are the word's fields, in order (30_encoding.md R61, R63). -/
theorem operandsOf_of_decode {w : CmdWord} {i : Instr} (h : decode w = .instr i) :
    ∃ ignored, operandsOf i ++ ignored = [(fieldA w).toNat, (fieldB w).toNat, (fieldC w).toNat, (fieldD w).toNat] := by
  unfold decode at h
  split at h <;> cases h <;> simp [operandsOf]

/-- What a word decodes to is well-formed (R61). -/
theorem wellFormed_of_decode {w : CmdWord} {i : Instr} (h : decode w = .instr i) : WellFormed i := by
  rw [wellFormed_iff]
  intro n hn
  obtain ⟨ignored, hops⟩ := operandsOf_of_decode h
  have hmem := List.mem_append_left ignored hn
  simp only [hops, List.mem_cons, List.not_mem_nil, or_false] at hmem
  rcases hmem with rfl | rfl | rfl | rfl <;> exact BitVec.isLt _

/-- An idle block that accepts a drawing command goes on from the first of the command's requests (00_scope.md R6). -/
theorem accept_drawing {w : CmdWord} {i : Instr} (hd : decode w = .instr i) (hi : i ≠ .clear) :
    ∃ o, Draw.Makes (latch w) o (requestsOf i) ∧
      ∀ s : State, s.running = none → accept w s = goOn (latch w) o s := by
  obtain ⟨ignored, hops⟩ := operandsOf_of_decode hd
  cases i with
  | clear => exact absurd rfl hi
  | setpixel x y =>
    simp only [operandsOf, List.cons_append, List.cons.injEq] at hops
    obtain ⟨rfl, rfl, -⟩ := hops
    exact ⟨some (.pixel (fieldA w) (fieldB w)), .request .over, fun s _ => by simp only [accept, hd]; rfl⟩
  | drawline x1 y1 x2 y2 =>
    simp only [operandsOf, List.cons_append, List.cons.injEq] at hops
    obtain ⟨rfl, rfl, rfl, rfl, -⟩ := hops
    have hline := Draw.makes_line (r := latch w) (f := .line) (x1 := fieldA w) (y1 := fieldB w) (x2 := fieldC w)
      (y2 := fieldD w) (fun _ => rfl) (fun _ => rfl) .over
    rw [List.append_nil] at hline
    exact ⟨_, hline, fun s _ => by simp only [accept, hd]; rfl⟩
  | drawrect l t r b =>
    simp only [operandsOf, List.cons_append, List.cons.injEq] at hops
    obtain ⟨rfl, rfl, rfl, rfl, -⟩ := hops
    exact ⟨_, Draw.makes_rect (latch w), fun s _ => by simp only [accept, hd]; rfl⟩
  | fillrect x0 y0 x1 y1 =>
    simp only [operandsOf, List.cons_append, List.cons.injEq] at hops
    obtain ⟨rfl, rfl, rfl, rfl, -⟩ := hops
    cases hn : gap (fieldA w).toNat (fieldC w).toNat with
    | zero =>
      have hempty : requestsOf (.fillrect (fieldA w).toNat (fieldB w).toNat (fieldC w).toNat (fieldD w).toNat) = [] := by
        rw [← List.length_eq_zero_iff, requestsOf, fillRequests_length, hn, Nat.zero_mul]
      rw [hempty]
      refine ⟨none, .over, fun s hs => ?_⟩
      simp only [accept, hd, fillCount_eq_gap, hn, goOn, ← hs]
    | succ n =>
      refine ⟨_, Draw.makes_fill (r := latch w) hn.symm, fun s _ => ?_⟩
      simp only [accept, hd, fillCount_eq_gap, hn]
      rfl

theorem state_with_running {s : State} {ro : Option Running} (h : s.running = ro) : { s with running := ro } = s := by
  subst h; rfl

/-- A block that accepts a command delivers what ends in the state exec gives (00_scope.md R8). -/
theorem accept_delivers {w : CmdWord} {i : Instr} {s t : State} (hs : s.running = none) (hd : decode w = .instr i)
    (ht : exec i s = .next t) : ∃ es, Delivers (accept w s) es t := by
  by_cases hi : i = .clear
  · subst hi
    rw [exec_clear, Host.Outcome.next.injEq] at ht
    have hidle : { t with running := none } = t := by subst ht; exact state_with_running (by simp [hs])
    rw [← hidle, ← ht]
    exact clear_delivers s hd
  · rw [exec_drawing hi, Host.Outcome.next.injEq] at ht
    have hidle : { t with running := none } = t := by subst ht; exact state_with_running (by simp [hs])
    obtain ⟨o, hmakes, haccept⟩ := accept_drawing hd hi
    rw [haccept s hs, ← hidle, ← ht]
    exact goOn_delivers s hmakes (requestsOf_length_le (wellFormed_of_decode hd))

/-- Acceptance sends nothing: the first event is only offered (00_scope.md R6, R7). -/
theorem accept_trace (w : CmdWord) (s : State) : (accept w s).trace = s.trace := by
  unfold accept
  cases decode w with
  | reserved op => rfl
  | instr i =>
    cases i with
    | clear => rfl
    | setpixel x y => exact (takeUp_cases _ _ _ _).1
    | drawline x1 y1 x2 y2 => exact (takeUp_cases _ _ _ _).1
    | drawrect l t r b => exact (takeUp_cases _ _ _ _).1
    | fillrect x0 y0 x1 y1 =>
      dsimp only
      split
      · rfl
      · exact (takeUp_cases _ _ _ _).1

/-- Settles O51: the accepted command delivers its events, as many as the trace has grown by, and stalls change nothing. -/
theorem clockedBlockRefinesExec : Obligations.ClockedBlockRefinesExec := by
  intro s t p ps i hidle hrst hvalid hdec hexec hquiet hready
  have hs := (not_busy_iff s).mp hidle
  obtain ⟨es, hes⟩ := accept_delivers hs hdec hexec
  have hnew : newEvents s t = es.map Send.event := by
    rw [newEvents, hes.trace, accept_trace, List.drop_left]
  rw [hnew, List.length_map] at hready
  rw [cycles_cons, cycle_accept hrst hvalid hs]
  exact hes.cycles_eq hquiet hready

end Sys2Proof.Machine
end

section
/-! SUPPORT. The cache as a matter of the accepted requests (10_state.md R22, R23): dropped requests do not count, and an
accepted one lengthens the current x-run or begins a new one (00_scope.md R16). -/

namespace Sys2Proof.Machine

open Sys2Proof.Safety

@[simp] theorem accepted_nil : accepted [] = [] := rfl

@[simp] theorem accepted_append (rs qs : List Request) : accepted (rs ++ qs) = accepted rs ++ accepted qs :=
  List.filter_append ..

theorem accepted_cons_inRange {x y : Nat} (rs : List Request) (h : x < 84 ∧ y < 48) :
    accepted ((x, y) :: rs) = (x, y) :: accepted rs :=
  List.filter_cons_of_pos ((inRange_iff x y).mpr h)

theorem accepted_cons_dropped {x y : Nat} (rs : List Request) (h : ¬(x < 84 ∧ y < 48)) :
    accepted ((x, y) :: rs) = accepted rs :=
  List.filter_cons_of_neg ((inRange_iff x y).not.mpr h)

theorem inRange_of_mem_accepted {r : Request} {rs : List Request} (h : r ∈ accepted rs) : r.1 < 84 ∧ r.2 < 48 :=
  (inRange_iff r.1 r.2).mp (List.mem_filter.mp h).2

/-- PREVX holds the x of an accepted request whole (10_state.md R22). -/
theorem toNat_ofNat_of_mem_accepted {r : Request} {rs : List Request} (h : r ∈ accepted rs) :
    (BitVec.ofNat 8 r.1).toNat = r.1 := by
  obtain ⟨hx, -⟩ := inRange_of_mem_accepted h
  rw [BitVec.toNat_ofNat]
  omega

/-- A dropped request does not end the current x-run (41_pixel_write.md R93). -/
theorem currentRun_concat_dropped {x y : Nat} (rs : List Request) (h : ¬(x < 84 ∧ y < 48)) :
    currentRun (rs ++ [(x, y)]) = currentRun rs := by
  have hsame : accepted (rs ++ [(x, y)]) = accepted rs := by
    rw [accepted_append, accepted_cons_dropped [] h]; exact List.append_nil _
  rw [currentRun, hsame, currentRun]

/-- An accepted request joins the current x-run when the last accepted one has its x, and else begins a new one (R16). -/
theorem currentRun_concat_inRange {x y : Nat} (rs : List Request) (h : x < 84 ∧ y < 48) :
    currentRun (rs ++ [(x, y)]) =
      (x, y) :: if (accepted rs).getLast?.map Prod.fst = some x then currentRun rs else [] := by
  have hrev : (accepted (rs ++ [(x, y)])).reverse = (x, y) :: (accepted rs).reverse := by
    rw [accepted_append, accepted_cons_inRange [] h, List.reverse_append]; rfl
  rw [currentRun, hrev, currentRun, ← List.head?_reverse]
  cases (accepted rs).reverse with
  | nil => rfl
  | cons q before =>
    by_cases hq : q.1 = x
    · simp [hq]
    · simp [hq]

/-- The OR of the bits of a run of requests (10_state.md R23). -/
def runBits (run : List Request) : Byte := run.foldr (fun r a => a ||| (1#8 <<< (r.2 % 8))) 0x00#8

theorem runBits_cons (x y : Nat) (run : List Request) : runBits ((x, y) :: run) = runBits run ||| (1#8 <<< (y % 8)) := rfl

theorem cacheOfRequests_iff {s : State} :
    CacheOfRequests s ↔ s.cache.acc = runBits (currentRun s.requests) ∧
      s.cache.prevx = ((accepted s.requests).getLast?.map fun r => BitVec.ofNat 8 r.1).getD 0x00#8 :=
  Iff.rfl

/-- What ACC carries over to a request at `x`: the bits of the x-run the request joins (41_pixel_write.md R91). -/
theorem acc_carried_of_cacheOfRequests {s : State} (h : CacheOfRequests s) (x : Nat) :
    (if x = s.cache.prevx.toNat then s.cache.acc else 0#8) =
      runBits (if (accepted s.requests).getLast?.map Prod.fst = some x then currentRun s.requests else []) := by
  obtain ⟨hacc, hprevx⟩ := cacheOfRequests_iff.mp h
  cases hlast : (accepted s.requests).getLast? with
  | none =>
    have hrun : currentRun s.requests = [] := by simp [currentRun, List.getLast?_eq_none_iff.mp hlast]
    simp [hacc, hrun, runBits]
  | some q =>
    have hx : s.cache.prevx.toNat = q.1 := by
      rw [hprevx, hlast]
      exact toNat_ofNat_of_mem_accepted (List.mem_of_getLast? hlast)
    by_cases hq : q.1 = x
    · simp [hx, hq, hacc]
    · simp [hx, hq, Ne.symm hq, runBits]

/-- A pixel request keeps the cache what the requests make of it. -/
theorem pixel_keeps_cacheOfRequests {s : State} (r : Request) (h : CacheOfRequests s) : CacheOfRequests (pixel s r) := by
  obtain ⟨x, y⟩ := r
  rw [cacheOfRequests_iff]
  by_cases hr : x < 84 ∧ y < 48
  · rw [pixel_accepted s hr]
    constructor
    · dsimp only
      rw [currentRun_concat_inRange _ hr, runBits_cons, accAfter, acc_carried_of_cacheOfRequests h x]
    · simp [accepted_cons_inRange [] hr]
  · obtain ⟨hacc, hprevx⟩ := cacheOfRequests_iff.mp h
    rw [pixel_dropped s hr]
    constructor
    · rw [note_requests, currentRun_concat_dropped _ hr]
      exact hacc
    · rw [note_requests, accepted_append, accepted_cons_dropped [] hr]
      simpa using hprevx

theorem drawAll_keeps_cacheOfRequests (rs : List Request) {s : State} (h : CacheOfRequests s) :
    CacheOfRequests (drawAll s rs) := by
  induction rs generalizing s with
  | nil => exact h
  | cons r rs ih => exact ih (pixel_keeps_cacheOfRequests r h)

/-- Settles O27: a drawing command is its pixel requests, each of which keeps it; CLEAR touches neither cache nor requests. -/
theorem cacheIsTheCurrentRunOfRequests : Obligations.CacheIsTheCurrentRunOfRequests := by
  refine ⟨⟨rfl, rfl⟩, fun i s h => ?_⟩
  by_cases hi : i = .clear
  · subst hi
    refine ⟨_, exec_clear s, ?_⟩
    simpa [CacheOfRequests] using h
  · exact ⟨_, exec_drawing hi s, drawAll_keeps_cacheOfRequests _ h⟩

end Sys2Proof.Machine
end

section
/-! SUPPORT. The frame of every command (20_memory.md R46, 10_state.md R22): the cells and the cache it leaves as they were. -/

namespace Sys2Proof.Machine

open Sys2Proof.Safety

/-- A pixel request leaves every cell but its own as it was (20_memory.md R46). -/
theorem pixel_read_of_ne {a : Nat} {r : Request} (s : State)
    (h : ∀ p, translate r.1 r.2 = some p → a ≠ cellKey p.column p.bank) :
    Memory.read (pixel s r).controller.ddram a = Memory.read s.controller.ddram a := by
  cases htr : translate r.1 r.2 with
  | none => rw [pixel_of_translate_none s htr, note_controller]
  | some p =>
    rw [pixel_of_translate_some s htr]
    simp [Memory.read_write, h p htr]

theorem drawAll_read_of_ne {a : Nat} {rs : List Request} (s : State)
    (h : ∀ r ∈ rs, ∀ p, translate r.1 r.2 = some p → a ≠ cellKey p.column p.bank) :
    Memory.read (drawAll s rs).controller.ddram a = Memory.read s.controller.ddram a := by
  induction rs generalizing s with
  | nil => rfl
  | cons r rs ih =>
    obtain ⟨hr, hrs⟩ := List.forall_mem_cons.mp h
    rw [drawAll_cons, ih _ hrs, pixel_read_of_ne s hr]

/-- Zero bytes reach only the 504 cells (20_memory.md R40). -/
theorem sendZeros_read_outside {a : Nat} (ha : Config.cells ≤ a) (n : Nat) (s : State) :
    Memory.read (sendZeros n s).controller.ddram a = Memory.read s.controller.ddram a := by
  induction n generalizing s with
  | zero => rfl
  | succ n ih =>
    have hne : a ≠ cellKey s.controller.cx s.controller.cy := ((cellKey_lt _ _).trans_le ha).ne'
    rw [sendZeros_succ, ih, send_controller, apply_data_ddram, Memory.read_write, if_neg hne]

/-- A list of requests has the effect of its accepted ones (41_pixel_write.md R93). -/
theorem drawEffect_accepted (rs : List Request) (c : Cache) : drawEffect (accepted rs) c = drawEffect rs c := by
  induction rs generalizing c with
  | nil => rfl
  | cons r rs ih =>
    obtain ⟨x, y⟩ := r
    by_cases h : x < 84 ∧ y < 48
    · simp only [accepted_cons_inRange rs h, drawEffect, if_pos h, ih]
    · simp only [accepted_cons_dropped rs h, drawEffect, if_neg h, ih]

/-- With no accepted request nothing is sent and the cache is kept (10_state.md R21, R22). -/
theorem drawEffect_of_accepted_nil {rs : List Request} (c : Cache) (h : accepted rs = []) : drawEffect rs c = ([], c) := by
  rw [← drawEffect_accepted, h, drawEffect]

theorem drawAll_cache_of_accepted_nil {rs : List Request} (s : State) (h : accepted rs = []) :
    (drawAll s rs).cache = s.cache := by
  rw [(drawAll_effect s rs).2, drawEffect_of_accepted_nil _ h]

/-- Drawing leaves PREVX at the x of the last accepted request (10_state.md R22). -/
theorem drawAll_prevx_of_getLast {rs : List Request} {r : Request} (s : State)
    (h : (accepted rs).getLast? = some r) : (drawAll s rs).cache.prevx.toNat = r.1 := by
  have hmem := List.mem_of_getLast? h
  obtain ⟨before, hbefore⟩ := List.getLast?_eq_some_iff.mp h
  have hcache : (drawAll s rs).cache = (pixel (drawAll s before) r).cache := by
    rw [(drawAll_effect s rs).2, ← drawEffect_accepted, hbefore, ← (drawAll_effect s _).2, drawAll_append]
    rfl
  rw [hcache, pixel_accepted _ (inRange_of_mem_accepted hmem)]
  exact toNat_ofNat_of_mem_accepted hmem

/-- Settles O25: CLEAR by the frame of its zero bytes, every other command by the frame of its pixel requests. -/
theorem commandsChangeOnlyWhatTheyMay : Obligations.CommandsChangeOnlyWhatTheyMay := by
  intro i s
  by_cases hi : i = .clear
  · subst hi
    refine ⟨_, exec_clear s, fun a ha _ => sendZeros_read_outside (ha rfl) _ (s.posCur 0 0), fun _ => ?_, fun r hr => ?_,
      ?_, ?_⟩
    · rw [sendZeros_cache, posCur_cache]
    · cases hr
    · rw [sendZeros_running, posCur_running]
    · rw [sendZeros_inputs, posCur_inputs]
  · exact ⟨_, exec_drawing hi s, fun a _ ha => drawAll_read_of_ne s ha, drawAll_cache_of_accepted_nil s,
      fun r => drawAll_prevx_of_getLast s, drawAll_running s _, drawAll_inputs s _⟩

end Sys2Proof.Machine
end

section
/-! SUPPORT. With ACC = 0 the value of PREVX cannot be observed (10_state.md R34). -/

namespace Sys2Proof.Machine

open Sys2Proof.Safety

/-- With ACC = 0 there are no bits to carry: ACC after a request is its own bit, whatever PREVX is (41_pixel_write.md R91). -/
theorem accAfter_of_acc_zero {c : Cache} (x y : Nat) (h : c.acc = 0#8) : accAfter c x y = 1#8 <<< (y % 8) := by
  simp [accAfter, h]

/-- From ACC = 0, requests that include an accepted one have one effect whatever PREVX is. -/
theorem drawEffect_of_acc_zero {c : Cache} {rs : List Request} (v : Byte) (h : c.acc = 0#8) (hrs : accepted rs ≠ []) :
    drawEffect rs { c with prevx := v } = drawEffect rs c := by
  rw [← drawEffect_accepted rs, ← drawEffect_accepted rs c]
  cases hacc : accepted rs with
  | nil => exact absurd hacc hrs
  | cons r rs =>
    obtain ⟨x, y⟩ := r
    have hin : x < 84 ∧ y < 48 := inRange_of_mem_accepted (hacc ▸ List.mem_cons_self)
    simp only [drawEffect, if_pos hin, pixelEvents, accAfter_of_acc_zero x y h,
      accAfter_of_acc_zero (c := { c with prevx := v }) x y h]

/-- A command with no accepted request leaves the cache, and what it sends does not depend on it. -/
theorem execEffect_of_accepted_nil {i : Instr} (h : accepted (requestsOf i) = []) :
    ∃ es, ∀ c, execEffect i c = (es, c) := by
  by_cases hi : i = .clear
  · subst hi
    exact ⟨clearEvents, fun _ => rfl⟩
  · exact ⟨[], fun c => by rw [execEffect_drawing hi, drawEffect_of_accepted_nil c h]⟩

/-- From ACC = 0 a command with an accepted request has one effect whatever PREVX is. -/
theorem execEffect_of_acc_zero {i : Instr} {c : Cache} (v : Byte) (h : c.acc = 0#8) (hi : accepted (requestsOf i) ≠ []) :
    execEffect i { c with prevx := v } = execEffect i c := by
  have hne : i ≠ .clear := by rintro rfl; exact hi rfl
  rw [execEffect_drawing hne, execEffect_drawing hne, drawEffect_of_acc_zero v h hi]

/-- Settles O26: both runs have the effects Exec gives, which agree; the controller consumes the same events. -/
theorem prevxIsUnobservableWhileAccIsZero : Obligations.PrevxIsUnobservableWhileAccIsZero := by
  intro i s v hacc
  obtain ⟨t, ht, httrace, htcache, htcontroller, htrequests, -⟩ := everyCommandDoesItsExec i s
  obtain ⟨u, hu, hutrace, hucache, hucontroller, hurequests, -⟩ :=
    everyCommandDoesItsExec i { s with cache := { s.cache with prevx := v } }
  have heffect : (execEffect i { s.cache with prevx := v }).1 = (execEffect i s.cache).1 ∧ u.cache.acc = t.cache.acc ∧
      (accepted (requestsOf i) ≠ [] → u.cache = t.cache) := by
    rw [hucache, htcache]
    by_cases hi : accepted (requestsOf i) = []
    · obtain ⟨es, hes⟩ := execEffect_of_accepted_nil hi
      rw [hes, hes]
      exact ⟨rfl, rfl, fun h => absurd hi h⟩
    · rw [execEffect_of_acc_zero v hacc hi]
      exact ⟨rfl, rfl, fun _ => rfl⟩
  obtain ⟨hevents, haccs, hcaches⟩ := heffect
  simp only [hevents] at hutrace hucontroller
  exact ⟨t, u, ht, hu, hutrace.trans httrace.symm, Option.some.inj (hucontroller.symm.trans htcontroller), haccs,
    hurequests.trans htrequests.symm, hcaches⟩

end Sys2Proof.Machine
end

section
/-! SUPPORT. The clocked block before its command's last event (10_state.md R25): busy, with the first of its events delivered. -/

namespace Sys2Proof.Machine

open Sys2Proof.Safety

/-- Going on to the next request or byte does not reach the controller. -/
theorem proceed_controller (r : Running) (s : State) : (proceed r s).controller = s.controller := by
  unfold proceed
  split
  · split <;> rfl
  · split
    · obtain ⟨-, hcontroller, -⟩ := takeUp_cases Config.maxRequests r ‹Draw› _
      exact hcontroller
    · rfl

theorem afterEvent_controller (r : Running) (s : State) : (afterEvent r s).controller = s.controller := by
  unfold afterEvent
  split
  · rfl
  · rfl
  · exact proceed_controller _ s
  · exact proceed_controller _ s

theorem goOn_controller (r : Running) (o : Option Draw) (s : State) : (goOn r o s).controller = s.controller := by
  cases o with
  | none => rfl
  | some d =>
    obtain ⟨-, hcontroller, -⟩ := takeUp_cases Config.maxRequests r d s
    exact hcontroller

/-- Acceptance does not reach the controller: the first event is only offered (00_scope.md R6, R7). -/
theorem accept_controller {w : CmdWord} {i : Instr} {s : State} (hs : s.running = none) (hd : decode w = .instr i) :
    (accept w s).controller = s.controller := by
  by_cases hi : i = .clear
  · subst hi; rw [accept_clear s hd]
  · obtain ⟨o, -, haccept⟩ := accept_drawing hd hi
    rw [haccept s hs, goOn_controller]

/-- With fewer ready cycles than events, whatever the stalls, the block is busy, and as many events are delivered as there were
ready cycles (60_exceptions.md R155). -/
theorem Delivers.cycles_busy {s t : State} {es : List Send} {ps : List Pins} (h : Delivers s es t) (hq : quiet ps)
    (hready : readyCount ps < es.length) :
    (cycles ps s).busy = true ∧
    (cycles ps s).trace = s.trace ++ (es.take (readyCount ps)).map Send.event ∧
    (cycles ps s).controller = (es.take (readyCount ps)).foldl Controller.apply s.controller := by
  induction ps generalizing s es with
  | nil =>
    cases h with
    | idle _ => simp at hready
    | event hr _ _ => exact ⟨(busy_iff_running s).mpr ⟨_, hr⟩, (List.append_nil _).symm, rfl⟩
  | cons p ps ih =>
    obtain ⟨⟨hrst, hvalid⟩, hq⟩ := quiet_cons.mp hq
    rw [cycles_cons]
    cases h with
    | idle _ => simp at hready
    | event hr he hrest =>
      cases hp : p.txReady with
      | false =>
        rw [readyCount_cons_stall ps hp] at hready ⊢
        rw [cycle_stall hrst hp hr he]
        exact ih (.event hr he hrest) hq hready
      | true =>
        rw [readyCount_cons_ready ps hp] at hready ⊢
        rw [cycle_deliver hrst hp hr he]
        obtain ⟨hbusy, htrace, hcontroller⟩ := ih hrest hq (Nat.lt_of_succ_lt_succ hready)
        refine ⟨hbusy, ?_, ?_⟩
        · rw [htrace, afterEvent_trace, send_trace, List.append_assoc]; rfl
        · rw [hcontroller, afterEvent_controller, send_controller]; rfl

/-- A command's new events are those it delivers from its acceptance on (00_scope.md R14 (a)). -/
theorem newEvents_of_accept_delivers {w : CmdWord} {s t : State} {es : List Send} (h : Delivers (accept w s) es t) :
    newEvents s t = es.map Send.event := by
  rw [newEvents, h.trace, accept_trace, List.drop_left]

/-- Settles O52: the accepted command's events are delivered one a ready cycle, and the controller consumes them. -/
theorem busyUntilTheLastEventIsDelivered : Obligations.BusyUntilTheLastEventIsDelivered := by
  intro s t p ps i hidle hrst hvalid hdec hexec hquiet hready
  have hs := (not_busy_iff s).mp hidle
  obtain ⟨es, hes⟩ := accept_delivers hs hdec hexec
  have hnew := newEvents_of_accept_delivers hes
  rw [hnew, List.length_map] at hready
  obtain ⟨hbusy, htrace, hcontroller⟩ := hes.cycles_busy hquiet hready
  rw [accept_trace] at htrace
  rw [accept_controller hs hdec] at hcontroller
  rw [cycles_cons, cycle_accept hrst hvalid hs, hnew, ← List.map_take, receiveAll_events, hcontroller]
  exact ⟨hbusy, htrace, rfl⟩

end Sys2Proof.Machine
end

section
/-! SUPPORT. The word a step takes next (10_state.md R28), and the state after reset (10_state.md R33). -/

namespace Sys2Proof.Machine

open Sys2Proof.Safety

/-- A command word, numbered as the table numbers words, is the same word again. -/
theorem ofNat_toNat_mod (w : CmdWord) : BitVec.ofNat 40 (w.toNat % 2 ^ 40) = w := by
  rw [Nat.mod_eq_of_lt w.isLt, BitVec.ofNat_toNat, BitVec.setWidth_eq]

/-- Settles O9: the word placed is the first input of an idle block, so the step runs what it decodes to. -/
theorem fetchWordIsTheNextCommandToRun : Obligations.FetchWordIsTheNextCommandToRun := by
  intro s w i hdec
  constructor
  · simp only [decodeTableWord, ofNat_toNat_mod, hdec]
    rfl
  · refine stepRunsTheDecodedCommand (s.withFetchWord 40 w.toNat) w s.inputs i rfl ?_ hdec
    simp only [State.withFetchWord, ofNat_toNat_mod]

/-- Settles O55: the reset values are the spec's, display memory is empty, and no operation runs. -/
theorem resetStateMeetsTheInvariant : Obligations.ResetStateMeetsTheInvariant := by
  refine ⟨rfl, rfl, rfl, ?_⟩
  constructor
  case memory => exact Memory.wf_nil
  case prevx => decide
  case operation =>
    intro r hr
    cases hr

end Sys2Proof.Machine
end

section
/-! SUPPORT. Every step keeps the invariant of display memory, PREVX and the running operation (20_memory.md R40, 10_state.md R22,
40_addressing.md R83, 41_pixel_write.md R95). -/

namespace Sys2Proof.Machine

open Sys2Proof.Safety

/-- Whatever byte the controller can read, its memory stays canonical. -/
theorem receive_wf {c d : Controller} {e : TxEvent} (h : c.receive e = some d) (hc : c.ddram.wf = true) :
    d.ddram.wf = true := by
  obtain ⟨x, -, rfl⟩ := Option.map_eq_some_iff.mp h
  exact apply_wf x hc

theorem receiveAll_wf {c d : Controller} {es : List TxEvent} (h : c.receiveAll es = some d) (hc : c.ddram.wf = true) :
    d.ddram.wf = true := by
  induction es generalizing c with
  | nil => cases h; exact hc
  | cons e es ih =>
    obtain ⟨c', hc', hrest⟩ := Option.bind_eq_some_iff.mp h
    exact ih hrest (receive_wf hc' hc)

/-- A data byte moves the cursor on to the next key, from the last cell to the first (20_memory.md R48). -/
theorem apply_data_key (c : Controller) (v : Byte) :
    cellKey (c.apply (.data v)).cx (c.apply (.data v)).cy = (cellKey c.cx c.cy + 1) % Config.cells :=
  advance_key { c with ddram := c.ddram.write (cellKey c.cx c.cy) v }

/-- An idle block meets the invariant when memory is canonical and PREVX a column. -/
theorem inv_of_idle {s : State} (hmem : s.controller.ddram.wf = true) (hprevx : s.cache.prevx.toNat < Config.width)
    (hidle : s.running = none) : Inv s :=
  ⟨hmem, hprevx, fun r hr => by rw [hidle] at hr; cases hr⟩

/-- A busy block meets the invariant when moreover its operation is in order. -/
theorem inv_of_running {s : State} {r : Running} (hmem : s.controller.ddram.wf = true)
    (hprevx : s.cache.prevx.toNat < Config.width) (hr : s.running = some r) (hok : OperationOk r s) : Inv s :=
  ⟨hmem, hprevx, fun r' hr' => by rw [hr, Option.some.injEq] at hr'; exact hr' ▸ hok⟩

/-- The inputs are no part of the invariant. -/
theorem inv_setInputs {s : State} (h : Inv s) (rest : List Input) : Inv (s.setInputs rest) :=
  ⟨h.memory, h.prevx, h.operation⟩

/-- An operation in order offers an event (notes/assumptions/9.md). -/
theorem offers_of_operationOk {r : Running} {s : State} (h : OperationOk r s) : ∃ e, r.offer s.cache = some e := by
  obtain ⟨opc, opa, opb, opc2, opd, ph, en⟩ := r
  cases en with
  | clear n =>
    cases ph with
    | column => exact ⟨_, rfl⟩
    | bank => exact ⟨_, rfl⟩
    | data => exact ⟨_, rfl⟩
    | done => exact h.elim
  | draw d =>
    obtain ⟨p, hp, -, hph⟩ := h
    cases ph with
    | column => exact ⟨.column p.column, by simp [Running.offer, hp]⟩
    | bank => exact ⟨.bank p.bank, by simp [Running.offer, hp]⟩
    | data => exact ⟨_, rfl⟩
    | done => exact hph.elim

/-- Taking up requests ends idle, or with the column command of a request in range on offer and its bit in ACC (R95). -/
theorem takeUp_inv (fuel : Nat) (r : Running) (d : Draw) {s : State} (hmem : s.controller.ddram.wf = true)
    (hprevx : s.cache.prevx.toNat < Config.width) : Inv (takeUp fuel r d s) := by
  obtain ⟨-, hcontroller, -, hprevx', hend⟩ := takeUp_cases fuel r d s
  rw [← hcontroller] at hmem
  rw [← hprevx'] at hprevx
  rcases hend with ⟨hidle, -⟩ | ⟨d', p, hp, hcache, hrunning⟩
  · exact inv_of_idle hmem hprevx hidle
  · exact inv_of_running hmem hprevx hrunning ⟨p, hp, hcache ▸ build_has_bit s.cache p, trivial⟩

theorem goOn_inv (r : Running) (o : Option Draw) {s : State} (hmem : s.controller.ddram.wf = true)
    (hprevx : s.cache.prevx.toNat < Config.width) : Inv (goOn r o s) := by
  cases o with
  | none => exact inv_of_idle hmem hprevx rfl
  | some d => exact takeUp_inv _ r d hmem hprevx

/-- An idle block that accepts a command keeps the invariant. -/
theorem accept_inv (w : CmdWord) {s : State} (h : Inv s) (hidle : s.running = none) : Inv (accept w s) := by
  cases hd : decode w with
  | reserved op => simpa [accept, hd] using h
  | instr i =>
    by_cases hi : i = .clear
    · subst hi
      rw [accept_clear s hd]
      exact inv_of_running h.memory h.prevx rfl rfl
    · obtain ⟨o, -, haccept⟩ := accept_drawing hd hi
      rw [haccept s hidle]
      exact goOn_inv _ o h.memory h.prevx

/-- The x of a request in range fits PREVX as a column (10_state.md R22). -/
theorem ofNat_lt_width_of_translate {x y : Nat} {p : Place} (h : translate x y = some p) :
    (BitVec.ofNat 8 x).toNat < Config.width := by
  have hx := column_lt p.column
  rw [translate_column h] at hx
  rw [BitVec.toNat_ofNat]
  exact (Nat.mod_le _ _).trans_lt hx

/-- CLEAR keeps the invariant when its event is delivered: the cursor stands at the cell CLRCNT counts (44_clear.md R130). -/
theorem clear_afterEvent_inv {r : Running} {n : BitVec 9} {e : Send} {s : State} (h : Inv s) (hr : s.running = some r)
    (hen : r.engine = .clear n) (he : r.offer s.cache = some e) : Inv (afterEvent r (s.send e)) := by
  have hok := h.operation r hr
  have hmem := apply_wf e h.memory
  obtain ⟨opc, opa, opb, opc2, opd, ph, en⟩ := r
  obtain rfl : en = .clear n := hen
  cases ph with
  | column =>
    obtain rfl := Option.some.inj he
    obtain rfl : n = 0#9 := hok
    exact inv_of_running hmem h.prevx rfl ⟨rfl, rfl⟩
  | bank =>
    obtain rfl := Option.some.inj he
    obtain ⟨rfl, hcx⟩ : n = 0#9 ∧ s.controller.cx = 0 := hok
    exact inv_of_running hmem h.prevx rfl ⟨by decide, congrArg (cellKey · 0) hcx⟩
  | data =>
    obtain rfl := Option.some.inj he
    obtain ⟨-, hkey⟩ : n.toNat < Config.cells ∧ cellKey s.controller.cx s.controller.cy = n.toNat := hok
    simp only [afterEvent, proceed]
    split
    case isTrue hmore =>
      have hnext : (n + 1#9).toNat = n.toNat + 1 := by
        have hcells : Config.cells = 504 := rfl
        rw [BitVec.toNat_add, BitVec.toNat_ofNat]; omega
      have hcursor := apply_data_key s.controller 0x00#8
      rw [hkey, Nat.mod_eq_of_lt hmore, ← hnext] at hcursor
      exact inv_of_running hmem h.prevx rfl ⟨hnext ▸ hmore, hcursor⟩
    case isFalse => exact inv_of_idle hmem h.prevx rfl
  | done => exact hok.elim

/-- A drawing operation keeps the invariant when its event is delivered: its two commands put the cursor at the
pixel's cell (40_addressing.md R83), and the x recorded is a column. -/
theorem draw_afterEvent_inv {r : Running} {d : Draw} {e : Send} {s : State} (h : Inv s) (hr : s.running = some r)
    (hen : r.engine = .draw d) (he : r.offer s.cache = some e) : Inv (afterEvent r (s.send e)) := by
  have hok := h.operation r hr
  have hmem := apply_wf e h.memory
  obtain ⟨opc, opa, opb, opc2, opd, ph, en⟩ := r
  obtain rfl : en = .draw d := hen
  obtain ⟨p, hp, hbit, hph⟩ := hok
  cases ph with
  | column =>
    obtain rfl : .column p.column = e := by simpa [Running.offer, hp] using he
    exact inv_of_running hmem h.prevx rfl ⟨p, hp, hbit, rfl⟩
  | bank =>
    obtain rfl : .bank p.bank = e := by simpa [Running.offer, hp] using he
    exact inv_of_running hmem h.prevx rfl ⟨p, hp, hbit, hph, rfl⟩
  | data =>
    simp only [afterEvent]
    rw [proceed_draw ⟨opc, opa, opb, opc2, opd, .data, .draw d⟩]
    exact goOn_inv _ _ hmem (ofNat_lt_width_of_translate hp)
  | done => exact hph.elim

/-- A clock cycle, whatever its pins, keeps the invariant. -/
theorem cycle_inv (p : Pins) {s : State} (h : Inv s) : Inv (cycle p s) := by
  cases hrst : p.rst with
  | true =>
    rw [cycle_reset s hrst]
    exact inv_of_idle h.memory (by decide : Config.prevxReset.toNat < Config.width) rfl
  | false =>
    cases hr : s.running with
    | none =>
      cases hvalid : p.cmdValid with
      | true => rw [cycle_accept hrst hvalid hr]; exact accept_inv p.cmd h hr
      | false => rw [cycle_idle hrst hvalid hr]; exact h
    | some r =>
      obtain ⟨e, he⟩ := offers_of_operationOk (h.operation r hr)
      cases hready : p.txReady with
      | false => rw [cycle_stall hrst hready hr he]; exact h
      | true =>
        rw [cycle_deliver hrst hready hr he]
        cases hen : r.engine with
        | clear n => exact clear_afterEvent_inv h hr hen he
        | draw d => exact draw_afterEvent_inv h hr hen he

/-- A whole command of an idle block keeps the invariant: the controller has consumed what was sent, and PREVX is as it
was or the x of an accepted request (10_state.md R22). -/
theorem exec_inv {i : Instr} {s t : State} (h : Inv s) (hidle : s.running = none) (hexec : exec i s = .next t) :
    Inv t := by
  obtain ⟨u, hu, -, -, hcontroller, -, hrunning, -⟩ := everyCommandDoesItsExec i s
  obtain ⟨v, hv, -, hsame, hlast, -⟩ := commandsChangeOnlyWhatTheyMay i s
  obtain rfl : u = t := Host.Outcome.next.inj (hu.symm.trans hexec)
  obtain rfl : v = u := Host.Outcome.next.inj (hv.symm.trans hexec)
  refine inv_of_idle (receiveAll_wf hcontroller h.memory) ?_ (hrunning.trans hidle)
  cases hl : (accepted (requestsOf i)).getLast? with
  | none => rw [hsame (List.getLast?_eq_none_iff.mp hl)]; exact h.prevx
  | some r =>
    obtain ⟨hx, -⟩ := inRange_of_mem_accepted (List.mem_of_getLast? hl)
    rw [hlast r hl]
    exact hx

/-- Settles O54, by what a step can do: wait, a clock cycle, a whole command, or a foreign byte. -/
theorem everyStepKeepsTheInvariant : Obligations.EveryStepKeepsTheInvariant := by
  intro s t h hstep
  rcases step_next_cases hstep with ⟨-, rfl⟩ | ⟨w, -, -, -, rfl⟩ | ⟨w, rest, i, -, hidle, -, hexec⟩ |
    ⟨w, rest, op, -, -, -, rfl⟩ | ⟨p, rest, -, rfl⟩ | ⟨e, rest, c, -, hidle, hc, rfl⟩
  · exact h
  · exact cycle_inv _ h
  · exact exec_inv (inv_setInputs h rest) ((not_busy_iff s).mp hidle) hexec
  · exact inv_setInputs h rest
  · exact cycle_inv p (inv_setInputs h rest)
  · exact inv_of_idle (receive_wf hc h.memory) h.prevx ((not_busy_iff s).mp hidle)

end Sys2Proof.Machine
end

section
/-! SUPPORT. What a step answers, one equation for each thing the outside does. -/

namespace Sys2Proof.Machine

theorem step_waiting {s : State} (hin : s.inputs = []) : step s = .next s := by simp [step, hin]

/-- A command offered to a busy block is held for one clock cycle (60_exceptions.md R144). -/
theorem step_held {s : State} {w : CmdWord} {rest : List Input} (hbusy : s.busy = true)
    (hin : s.inputs = .command w :: rest) : step s = .next (heldCommand w s) := by
  simp [step, hin, hbusy]

theorem step_clock {s : State} {p : Pins} {rest : List Input} (hin : s.inputs = .clock p :: rest) :
    step s = .next (cycle p (s.setInputs rest)) := by
  simp [step, hin]

theorem step_foreign {s : State} {e : TxEvent} {rest : List Input} (hin : s.inputs = .foreign e :: rest) :
    step s = foreignByte e (s.setInputs rest) := by
  simp [step, hin]

/-- A foreign byte while BUSY = 1 is outside the model (93_implementation_defined.md U9). -/
theorem foreignByte_busy {s : State} (e : TxEvent) (hbusy : s.busy = true) :
    foreignByte e s = .refused .foreignWhileBusy := by
  simp [foreignByte, hbusy]

/-- A foreign byte the controller cannot read is outside the model (U4). -/
theorem foreignByte_unread {s : State} {e : TxEvent} (hidle : s.busy = false) (he : readEvent e = none) :
    foreignByte e s = .refused (.controllerByteOutsideModel e) := by
  simp [foreignByte, hidle, Controller.receive, he]

/-- A foreign byte between commands is consumed by the controller and changes nothing else (20_memory.md R57). -/
theorem foreignByte_read {s : State} {e : TxEvent} {x : Send} (hidle : s.busy = false) (he : readEvent e = some x) :
    foreignByte e s = .next { s with controller := s.controller.apply x } := by
  simp [foreignByte, hidle, Controller.receive, he]

end Sys2Proof.Machine
end

section
/-! SUPPORT. The block never reads the controller (20_memory.md R45, R50): from two states that differ in the controller alone,
everything the machine does leads to two such states. -/

namespace Sys2Proof.Machine

open Sys2Proof.Safety

/-- The two states differ in the controller at most. -/
def SameButController (s u : State) : Prop := { s with controller := u.controller } = u

section
variable {s u : State}

theorem sameButController_iff : SameButController s u ↔ ∃ c, u = { s with controller := c } :=
  ⟨fun h => ⟨u.controller, h.symm⟩, by rintro ⟨c, rfl⟩; rfl⟩

theorem SameButController.running_eq (h : SameButController s u) : u.running = s.running := by rw [← h]

theorem SameButController.cache_eq (h : SameButController s u) : u.cache = s.cache := by rw [← h]

theorem SameButController.inputs_eq (h : SameButController s u) : u.inputs = s.inputs := by rw [← h]

theorem SameButController.trace_eq (h : SameButController s u) : u.trace = s.trace := by rw [← h]

theorem SameButController.busy_eq (h : SameButController s u) : u.busy = s.busy := by
  rw [State.busy, h.running_eq, State.busy]

theorem SameButController.after_setInputs (h : SameButController s u) (rest : List Input) :
    SameButController (s.setInputs rest) (u.setInputs rest) := by
  obtain ⟨c, rfl⟩ := sameButController_iff.mp h
  rfl

theorem SameButController.after_send (h : SameButController s u) (e : Send) :
    SameButController (s.send e) (u.send e) := by
  obtain ⟨c, rfl⟩ := sameButController_iff.mp h
  rfl

/-! ### A whole command -/

theorem SameButController.after_sendZeros (h : SameButController s u) (n : Nat) :
    SameButController (sendZeros n s) (sendZeros n u) := by
  induction n generalizing s u with
  | zero => exact h
  | succ n ih => exact ih (h.after_send (.data 0x00#8))

theorem SameButController.after_pixel (h : SameButController s u) (r : Request) :
    SameButController (pixel s r) (pixel u r) := by
  obtain ⟨c, rfl⟩ := sameButController_iff.mp h
  cases hr : translate r.1 r.2 with
  | none => rw [pixel_of_translate_none _ hr, pixel_of_translate_none _ hr]; rfl
  | some p => rw [pixel_of_translate_some _ hr, pixel_of_translate_some _ hr]; rfl

theorem SameButController.after_drawAll (h : SameButController s u) (rs : List Request) :
    SameButController (drawAll s rs) (drawAll u rs) := by
  induction rs generalizing s u with
  | nil => exact h
  | cons r rs ih => exact ih (h.after_pixel r)

theorem SameButController.after_exec (h : SameButController s u) (i : Instr) :
    ∃ s' u', exec i s = .next s' ∧ exec i u = .next u' ∧ SameButController s' u' := by
  by_cases hi : i = .clear
  · subst hi
    have hpos : SameButController (s.posCur 0 0) (u.posCur 0 0) := (h.after_send (.column 0)).after_send (.bank 0)
    exact ⟨_, _, exec_clear s, exec_clear u, hpos.after_sendZeros Config.cells⟩
  · exact ⟨_, _, exec_drawing hi s, exec_drawing hi u, h.after_drawAll (requestsOf i)⟩

/-! ### A clock cycle -/

theorem SameButController.after_takeUp (h : SameButController s u) (fuel : Nat) (r : Running) (d : Draw) :
    SameButController (takeUp fuel r d s) (takeUp fuel r d u) := by
  obtain ⟨c, rfl⟩ := sameButController_iff.mp h
  clear h
  induction fuel generalizing d s with
  | zero => unfold takeUp; cases translate d.request.1 d.request.2 <;> rfl
  | succ fuel ih =>
    cases htr : translate d.request.1 d.request.2 with
    | some p => rw [takeUp_inRange _ htr, takeUp_inRange _ htr]; rfl
    | none =>
      cases hn : d.next r with
      | none => rw [takeUp_dropped_last _ htr hn, takeUp_dropped_last _ htr hn]; rfl
      | some d' =>
        rw [takeUp_dropped_next _ htr hn, takeUp_dropped_next _ htr hn]
        exact ih (s := s.note d.request) d'

theorem SameButController.after_goOn (h : SameButController s u) (r : Running) (o : Option Draw) :
    SameButController (goOn r o s) (goOn r o u) := by
  cases o with
  | none => obtain ⟨c, rfl⟩ := sameButController_iff.mp h; rfl
  | some d => exact h.after_takeUp _ r d

theorem SameButController.after_accept (h : SameButController s u) (hidle : s.running = none) (w : CmdWord) :
    SameButController (accept w s) (accept w u) := by
  cases hd : decode w with
  | reserved op => simpa [accept, hd] using h
  | instr i =>
    by_cases hi : i = .clear
    · subst hi
      obtain ⟨c, rfl⟩ := sameButController_iff.mp h
      rw [accept_clear _ hd, accept_clear _ hd]
      rfl
    · obtain ⟨o, -, haccept⟩ := accept_drawing hd hi
      rw [haccept s hidle, haccept u (h.running_eq.trans hidle)]
      exact h.after_goOn (latch w) o

theorem SameButController.after_proceed (h : SameButController s u) (r : Running) :
    SameButController (proceed r s) (proceed r u) := by
  obtain ⟨c, rfl⟩ := sameButController_iff.mp h
  unfold proceed
  cases r.engine with
  | clear n => dsimp only; split <;> rfl
  | draw d =>
    dsimp only
    cases d.next r with
    | none => rfl
    | some d' =>
      have hrecord (v : Byte) : SameButController { s with cache := s.cache.record v }
          { s with controller := c, cache := s.cache.record v } := rfl
      exact (hrecord (BitVec.ofNat 8 d.request.1)).after_takeUp _ r d'

theorem SameButController.after_event (h : SameButController s u) (r : Running) :
    SameButController (afterEvent r s) (afterEvent r u) := by
  unfold afterEvent
  cases r.txphase with
  | column => obtain ⟨c, rfl⟩ := sameButController_iff.mp h; rfl
  | bank => obtain ⟨c, rfl⟩ := sameButController_iff.mp h; rfl
  | data => exact h.after_proceed _
  | done => exact h.after_proceed r

/-- What is accepted and what is offered is a matter of the block and the pins. -/
theorem SameButController.after_cycle (h : SameButController s u) (p : Pins) :
    SameButController (cycle p s) (cycle p u) := by
  cases hrst : p.rst with
  | true =>
    rw [cycle_reset s hrst, cycle_reset u hrst]
    obtain ⟨c, rfl⟩ := sameButController_iff.mp h
    rfl
  | false =>
    cases hr : s.running with
    | none =>
      have hr' := h.running_eq.trans hr
      cases hvalid : p.cmdValid with
      | false => rw [cycle_idle hrst hvalid hr, cycle_idle hrst hvalid hr']; exact h
      | true => rw [cycle_accept hrst hvalid hr, cycle_accept hrst hvalid hr']; exact h.after_accept hr p.cmd
    | some r =>
      simp only [cycle, hrst, h.running_eq, h.cache_eq, hr]
      cases r.offer s.cache with
      | none => exact h.after_proceed r
      | some e =>
        cases p.txReady with
        | false => exact h
        | true => exact (h.after_send e).after_event r

/-! ### A step -/

/-- A step goes on from both, or is refused in both for one reason: whether the controller's model describes a foreign byte is a
matter of the byte (20_memory.md R47). -/
theorem SameButController.after_step (h : SameButController s u) :
    (∃ s' u', step s = .next s' ∧ step u = .next u' ∧ SameButController s' u') ∨
      ∃ q, step s = .refused q ∧ step u = .refused q := by
  cases hin : s.inputs with
  | nil => exact .inl ⟨s, u, step_waiting hin, step_waiting (h.inputs_eq.trans hin), h⟩
  | cons input rest =>
    have hin' := h.inputs_eq.trans hin
    have hrest := h.after_setInputs rest
    cases input with
    | clock p => exact .inl ⟨_, _, step_clock hin, step_clock hin', hrest.after_cycle p⟩
    | command w =>
      left
      cases hbusy : s.busy with
      | true =>
        exact ⟨_, _, step_held hbusy hin, step_held (h.busy_eq.trans hbusy) hin', h.after_cycle (offerPins w)⟩
      | false =>
        have hbusy' := h.busy_eq.trans hbusy
        cases hd : decode w with
        | reserved op => exact ⟨_, _, step_reserved hbusy hin hd, step_reserved hbusy' hin' hd, hrest⟩
        | instr i =>
          rw [stepRunsTheDecodedCommand s w rest i hbusy hin hd, stepRunsTheDecodedCommand u w rest i hbusy' hin' hd]
          exact hrest.after_exec i
    | foreign e =>
      rw [step_foreign hin, step_foreign hin']
      cases hbusy : s.busy with
      | true =>
        exact .inr ⟨_, foreignByte_busy e hbusy, foreignByte_busy e (h.busy_eq.trans hbusy)⟩
      | false =>
        have hbusy' := h.busy_eq.trans hbusy
        cases he : readEvent e with
        | none => exact .inr ⟨_, foreignByte_unread hbusy he, foreignByte_unread hbusy' he⟩
        | some x =>
          refine .inl ⟨_, _, foreignByte_read hbusy he, foreignByte_read hbusy' he, ?_⟩
          obtain ⟨c, rfl⟩ := sameButController_iff.mp h
          rfl

end

/-- Settles O21: a step from two states that differ in the controller alone goes on to two such states, or is refused alike. -/
theorem blockNeverReadsTheController : Obligations.BlockNeverReadsTheController := by
  intro s c
  have h : SameButController s { s with controller := c } := rfl
  obtain ⟨t, u, ht, hu, hsame⟩ | ⟨q, hs, hu⟩ := h.after_step
  · rw [ht, hu]
    exact hsame
  · rw [hs, hu]

end Sys2Proof.Machine
end

section
/-! SUPPORT. Where the cursor was has no part in what a command draws: it is positioned anew before every run of data bytes
(40_addressing.md R83, 20_memory.md R50, R57). -/

namespace Sys2Proof.Machine

/-- The state with the controller's cursor elsewhere. -/
def State.withCursor (s : State) (cx : Fin Config.width) (cy : Fin Config.banks) : State :=
  { s with controller := { s.controller with cx := cx, cy := cy } }

/-- After positioning the cursor is the same wherever it was. -/
theorem posCur_withCursor (s : State) (cx c : Fin Config.width) (cy b : Fin Config.banks) :
    (s.withCursor cx cy).posCur c b = s.posCur c b := rfl

/-- An accepted request leaves the same state wherever the cursor was. -/
theorem pixel_withCursor_accepted (s : State) (cx : Fin Config.width) (cy : Fin Config.banks) {x y : Nat}
    (h : x < 84 ∧ y < 48) : pixel (s.withCursor cx cy) (x, y) = pixel s (x, y) := by
  rw [pixel_accepted _ h, pixel_accepted _ h]
  rfl

/-- A dropped request leaves the cursor where it was. -/
theorem pixel_withCursor_dropped (s : State) (cx : Fin Config.width) (cy : Fin Config.banks) {x y : Nat}
    (h : ¬(x < 84 ∧ y < 48)) : pixel (s.withCursor cx cy) (x, y) = (pixel s (x, y)).withCursor cx cy := by
  rw [pixel_dropped _ h, pixel_dropped _ h]
  rfl

theorem drawAll_withCursor_ddram (s : State) (cx : Fin Config.width) (cy : Fin Config.banks) (rs : List Request) :
    (drawAll (s.withCursor cx cy) rs).controller.ddram = (drawAll s rs).controller.ddram := by
  induction rs generalizing s with
  | nil => rfl
  | cons r rs ih =>
    obtain ⟨x, y⟩ := r
    by_cases h : x < 84 ∧ y < 48
    · rw [drawAll_cons, pixel_withCursor_accepted s cx cy h, drawAll_cons]
    · rw [drawAll_cons, pixel_withCursor_dropped s cx cy h, ih, drawAll_cons]

/-- Settles O22: CLEAR positions the cursor first, and so does every pixel that is drawn. -/
theorem displayDoesNotDependOnTheCursorBefore : Obligations.DisplayDoesNotDependOnTheCursorBefore := by
  intro i s cx cy
  by_cases hi : i = .clear
  · subst hi
    refine ⟨_, _, exec_clear s, exec_clear (s.withCursor cx cy), ?_⟩
    rw [posCur_withCursor]
  · exact ⟨_, _, exec_drawing hi s, exec_drawing hi (s.withCursor cx cy), drawAll_withCursor_ddram s cx cy _⟩

end Sys2Proof.Machine
end

section
/-! SUPPORT. What the controller does with a byte, by the byte's number (20_memory.md R47, R48; 30_encoding.md R67, R68), and
where the pixels stand in display memory (R41, R42). -/

namespace Sys2Proof.Machine

theorem column_event_toNat (x : Fin Config.width) : (Send.column x).event.value.toNat = 128 + x.val := by
  revert x; decide

theorem bank_event_toNat (b : Fin Config.banks) : (Send.bank b).event.value.toNat = 64 + b.val := by
  revert b; decide

/-- The command byte with the number of a positioning byte is that byte. -/
theorem receive_column (c : Controller) {v : Byte} {x : Fin Config.width} (h : v.toNat = 128 + x.val) :
    c.receive { mode := .command, value := v } = some { c with cx := x } := by
  have hv : v = (Send.column x).event.value := BitVec.eq_of_toNat_eq (h.trans (column_event_toNat x).symm)
  rw [hv]
  exact receive_event c (.column x)

theorem receive_bank (c : Controller) {v : Byte} {b : Fin Config.banks} (h : v.toNat = 64 + b.val) :
    c.receive { mode := .command, value := v } = some { c with cy := b } := by
  have hv : v = (Send.bank b).event.value := BitVec.eq_of_toNat_eq (h.trans (bank_event_toNat b).symm)
  rw [hv]
  exact receive_event c (.bank b)

/-- The controller refuses a command byte outside the ranges of the positioning bytes (93_implementation_defined.md U4). -/
theorem receive_outside (c : Controller) {v : Byte} (hcolumn : ¬(128 ≤ v.toNat ∧ v.toNat < 212))
    (hbank : ¬(64 ≤ v.toNat ∧ v.toNat < 70)) : c.receive { mode := .command, value := v } = none := by
  cases hread : readEvent { mode := .command, value := v } with
  | none => simp [Controller.receive, hread]
  | some x =>
    have he := readEvent_eq_some_iff.mp hread
    have hv := congrArg (fun e : TxEvent => e.value.toNat) he
    cases x with
    | column c' =>
      have := column_lt c'
      simp only [column_event_toNat] at hv
      omega
    | bank b =>
      have := bank_lt b
      simp only [bank_event_toNat] at hv
      omega
    | data w => cases congrArg TxEvent.mode he

/-- Settles O45, by the ranges of the command bytes and the laws of a data byte. -/
theorem controllerConsumesBytes : Obligations.ControllerConsumesBytes := by
  intro c v
  refine ⟨fun _ h => receive_column c h, fun h => receive_outside c (by omega) (by omega), fun _ h => receive_bank c h,
    fun h h' => receive_outside c (by omega) (by omega), fun h => receive_outside c (by omega) (by omega),
    c.apply (.data v), receive_event c (.data v), fun a => ?_, apply_data_key c v⟩
  rw [apply_data_ddram, Memory.read_write, cellKey_eq]

/-- Settles O46: the step consumes the byte, and a command sends the same from two states that differ in the controller alone. -/
theorem foreignBytesReachOnlyTheController : Obligations.ForeignBytesReachOnlyTheController := by
  intro s t e rest hin hstep
  rcases step_next_cases hstep with ⟨hin', -⟩ | ⟨_, _, hin', -⟩ | ⟨_, _, _, hin', -⟩ | ⟨_, _, _, hin', -⟩ |
    ⟨_, _, hin', -⟩ | ⟨_, _, c, hin', hidle, hc, rfl⟩ <;> cases hin.symm.trans hin'
  refine ⟨hidle, hc, rfl, fun i => ?_⟩
  have h : SameButController { s.setInputs rest with controller := c } (s.setInputs rest) := rfl
  obtain ⟨u, v, hu, hv, hsame⟩ := h.after_exec i
  exact ⟨u, v, hu, hv, hsame.trace_eq.symm⟩

/-- Settles O14: the translation has no place, so the request is noted and no more. -/
theorem outOfRangeSetpixelIsDropped : Obligations.OutOfRangeSetpixelIsDropped :=
  fun s _ _ h => ⟨translate_eq_none h, congrArg Host.Outcome.next (pixel_dropped s h)⟩

/-- Row `8b + i` of column `c` is bit `i` of the cell (c, b) (20_memory.md R41). -/
theorem translate_packed (c : Fin Config.width) (b : Fin Config.banks) (i : Fin 8) :
    translate c.val (8 * b.val + i.val) = some { column := c, bank := b, bit := i } := by
  have hb := bank_lt b
  have hdiv : (8 * b.val + i.val) / 8 = b.val := by omega
  have hmod : (8 * b.val + i.val) % 8 = i.val := by omega
  rw [translate_eq_some ⟨c.isLt, by omega⟩]
  simp only [hdiv, hmod]

/-- Settles O44: a pixel is read through its place. -/
theorem pixelsArePackedEightToACell : Obligations.PixelsArePackedEightToACell := by
  refine ⟨translate_packed, fun d c b i v hread => ?_⟩
  simp [Controller.lit, translate_packed, hread]

end Sys2Proof.Machine
end

section
/-! SUPPORT. The byte-serial form of a command word (20_memory.md R56). -/

namespace Sys2Proof

/-- A word is its five fields. -/
theorem packWord_fields (w : CmdWord) : packWord (fieldOp w) (fieldA w) (fieldB w) (fieldC w) (fieldD w) = w := by
  simp only [packWord, fieldOp, fieldA, fieldB, fieldC, fieldD, byteAt]
  ext i hi
  simp only [BitVec.getElem_append, BitVec.getElem_extractLsb']
  grind

/-- The number of a byte of a word. -/
theorem byteAt_toNat (w : CmdWord) (lo : Nat) : (byteAt w lo).toNat = w.toNat / 2 ^ lo % 256 := by
  simp [byteAt, Nat.shiftRight_eq_div_pow]

/-- Settles O5: the bytes are the word's fields, which pack to the word. -/
theorem serialisedWordDecodesAsTheWord : Obligations.SerialisedWordDecodesAsTheWord := by
  intro w rest
  constructor
  · simp [bytesOfWord, decodeBytes, packWord_fields]
  · have hop : w.toNat / 2 ^ 32 % 256 = w.toNat / 2 ^ 32 := by have := w.isLt; omega
    simp only [bytesOfWord, fieldOp, fieldA, fieldB, fieldC, fieldD, List.map_cons, List.map_nil, byteAt_toNat, hop,
      Nat.pow_zero, Nat.div_one]

end Sys2Proof
end

section
/-! SUPPORT. The trace is what the controller has consumed (00_scope.md R14 (c), 30_encoding.md R70, 20_memory.md R51): what the
block does from one state to the next, of a clock cycle as of a whole command, is to have its own events consumed. -/

namespace Sys2Proof.Machine

/-- The second state comes after the first by events that join the trace and that the controller consumes, in order. -/
def HasSent (s t : State) : Prop := ∃ es, t.trace = s.trace ++ es ∧ s.controller.receiveAll es = some t.controller

/-- What reaches neither trace nor controller sends no event. -/
theorem hasSent_of_silent {s t : State} (htrace : t.trace = s.trace) (hcontroller : t.controller = s.controller) :
    HasSent s t :=
  ⟨[], by rw [htrace, List.append_nil], congrArg some hcontroller.symm⟩

/-- The event a busy block delivers is consumed, and nothing else is sent in its cycle (00_scope.md R7). -/
theorem hasSent_afterEvent (r : Running) (s : State) (e : Send) : HasSent s (afterEvent r (s.send e)) := by
  refine ⟨[e.event], ?_, ?_⟩
  · rw [afterEvent_trace, send_trace]
  · rw [afterEvent_controller, send_controller]
    exact receiveAll_events s.controller [e]

/-- A reserved opcode is accepted and does nothing (30_encoding.md R64). -/
theorem accept_reserved {w : CmdWord} {op : Byte} (s : State) (h : decode w = .reserved op) : accept w s = s := by
  simp [accept, h]

/-- Acceptance sends nothing: the first event is only offered (00_scope.md R6, R7). -/
theorem hasSent_accept (w : CmdWord) {s : State} (hidle : s.running = none) : HasSent s (accept w s) := by
  refine hasSent_of_silent (accept_trace w s) ?_
  cases hd : decode w with
  | reserved op => rw [accept_reserved s hd]
  | instr i => exact accept_controller hidle hd

/-- A clock cycle, whatever its pins, sends at most the event on offer. -/
theorem hasSent_cycle (p : Pins) (s : State) : HasSent s (cycle p s) := by
  cases hrst : p.rst with
  | true => rw [cycle_reset s hrst]; exact hasSent_of_silent rfl rfl
  | false =>
    cases hr : s.running with
    | none =>
      cases hvalid : p.cmdValid with
      | true => rw [cycle_accept hrst hvalid hr]; exact hasSent_accept p.cmd hr
      | false => rw [cycle_idle hrst hvalid hr]; exact hasSent_of_silent rfl rfl
    | some r =>
      cases he : r.offer s.cache with
      | none =>
        have hproceed : cycle p s = proceed r s := by simp [cycle, hrst, hr, he]
        rw [hproceed]
        exact hasSent_of_silent (proceed_trace r s) (proceed_controller r s)
      | some e =>
        cases hready : p.txReady with
        | false => rw [cycle_stall hrst hready hr he]; exact hasSent_of_silent rfl rfl
        | true => rw [cycle_deliver hrst hready hr he]; exact hasSent_afterEvent r s e

/-- A whole command sends the events Exec gives it (00_scope.md R8). -/
theorem hasSent_exec {i : Instr} {s t : State} (h : exec i s = .next t) : HasSent s t := by
  obtain ⟨u, hu, htrace, -, hcontroller, -⟩ := everyCommandDoesItsExec i s
  obtain rfl : u = t := Host.Outcome.next.inj (hu.symm.trans h)
  exact ⟨_, htrace, hcontroller⟩

/-- What is still to come from outside has no part in what is sent. -/
theorem hasSent_setInputs {s t : State} {rest : List Input} : HasSent (s.setInputs rest) t ↔ HasSent s t := Iff.rfl

/-- A COMMAND event that the controller can read is a positioning byte (20_memory.md R47). -/
theorem positioning_of_receive {c d : Controller} {e : TxEvent} (h : c.receive e = some d) (hmode : e.mode = .command) :
    (128 ≤ e.value.toNat ∧ e.value.toNat ≤ 211) ∨ (64 ≤ e.value.toNat ∧ e.value.toNat ≤ 69) := by
  obtain ⟨m, v⟩ := e
  obtain rfl : m = .command := hmode
  by_contra hout
  dsimp only at hout
  rw [receive_outside c (by omega) (by omega)] at h
  cases h

/-- So is every COMMAND event among those the controller has consumed. -/
theorem positioning_of_receiveAll {c d : Controller} {es : List TxEvent} (h : c.receiveAll es = some d) :
    ∀ e ∈ es, e.mode = .command →
      (128 ≤ e.value.toNat ∧ e.value.toNat ≤ 211) ∨ (64 ≤ e.value.toNat ∧ e.value.toNat ≤ 69) := by
  induction es generalizing c with
  | nil => exact List.forall_mem_nil _
  | cons e es ih =>
    obtain ⟨c', hc', hrest⟩ := Option.bind_eq_some_iff.mp h
    exact List.forall_mem_cons.mpr ⟨positioning_of_receive hc', ih hrest⟩

/-- A step that goes on has the block's own events consumed, or a foreign byte reaches the controller and nothing joins the
trace (20_memory.md R51, R57). -/
theorem hasSent_or_foreign_of_step {s t : State} (h : step s = .next t) :
    HasSent s t ∨ ((∃ f rest, s.inputs = .foreign f :: rest) ∧ t.trace = s.trace) := by
  rcases step_next_cases h with ⟨-, rfl⟩ | ⟨w, -, -, -, rfl⟩ | ⟨w, rest, i, -, -, -, hexec⟩ |
    ⟨w, rest, op, -, -, -, rfl⟩ | ⟨p, rest, -, rfl⟩ | ⟨e, rest, c, hin, -, -, rfl⟩
  · exact .inl (hasSent_of_silent rfl rfl)
  · exact .inl (hasSent_cycle _ s)
  · exact .inl (hasSent_setInputs.mp (hasSent_exec hexec))
  · exact .inl (hasSent_of_silent rfl rfl)
  · exact .inl (hasSent_setInputs.mp (hasSent_cycle p _))
  · exact .inr ⟨⟨e, rest, hin⟩, rfl⟩

/-- Settles O47: what the controller has consumed tells the COMMAND bytes; a foreign byte adds nothing to the trace. -/
theorem displayIsTheTraceReplayed : Obligations.DisplayIsTheTraceReplayed := by
  intro s t hstep
  rcases hasSent_or_foreign_of_step hstep with ⟨es, htrace, hreceived⟩ | ⟨⟨f, rest, hin⟩, htrace⟩
  · exact ⟨es, htrace, positioning_of_receiveAll hreceived, .inr hreceived⟩
  · exact ⟨[], by rw [htrace, List.append_nil], List.forall_mem_nil _, .inl ⟨f, rest, hin, rfl⟩⟩

end Sys2Proof.Machine
end

section
/-! SUPPORT. The decoder and the canonical encoding, each the other's inverse but for the ignored fields (30_encoding.md R60 to
R65). -/

namespace Sys2Proof

open Sys2Proof.Machine

/-- What the decoder can answer: a command under its own opcode, or the opcode as reserved when it is 0 or at least 6 (R63, R64). -/
theorem decode_cases (w : CmdWord) :
    (∃ i, decode w = .instr i ∧ (fieldOp w).toNat = opcodeOf i) ∨
      (decode w = .reserved (fieldOp w) ∧ ((fieldOp w).toNat = 0 ∨ 6 ≤ (fieldOp w).toNat)) := by
  unfold decode
  split
  case h_1 h => exact .inl ⟨_, rfl, h⟩
  case h_2 h => exact .inl ⟨_, rfl, h⟩
  case h_3 h => exact .inl ⟨_, rfl, h⟩
  case h_4 h => exact .inl ⟨_, rfl, h⟩
  case h_5 h => exact .inl ⟨_, rfl, h⟩
  case h_6 h1 h2 h3 h4 h5 =>
    rw [imp_false] at h1 h2 h3 h4 h5
    exact .inr ⟨rfl, by omega⟩

/-- A word decodes to a command exactly when it holds the command's opcode and, in the first of its other fields, the command's
operands (R61, R63). -/
theorem decode_eq_instr_iff {w : CmdWord} {i : Instr} :
    decode w = .instr i ↔ (fieldOp w).toNat = opcodeOf i ∧
      ∃ ignored, operandsOf i ++ ignored = [(fieldA w).toNat, (fieldB w).toNat, (fieldC w).toNat, (fieldD w).toNat] := by
  constructor
  · intro h
    refine ⟨?_, operandsOf_of_decode h⟩
    obtain ⟨j, hj, hop⟩ | ⟨hres, -⟩ := decode_cases w
    · cases hj.symm.trans h
      exact hop
    · cases hres.symm.trans h
  · rintro ⟨hop, ignored, hops⟩
    cases i <;>
      · simp only [operandsOf, List.cons_append, List.nil_append, List.cons.injEq] at hops
        simp [decode, hop, opcodeOf, hops]

/-- The canonical word of every well-formed command holds its opcode and operands (R60, R65). -/
theorem canonicalWord (i : Instr) : Laws.CanonicalWord.Statement i := by
  cases i with
  | clear => exact Laws.CanonicalWord.clear
  | setpixel x y => exact Laws.CanonicalWord.setpixel x y
  | drawline x1 y1 x2 y2 => exact Laws.CanonicalWord.drawline x1 y1 x2 y2
  | drawrect l t r b => exact Laws.CanonicalWord.drawrect l t r b
  | fillrect x0 y0 x1 y1 => exact Laws.CanonicalWord.fillrect x0 y0 x1 y1

/-- Settles O2: the canonical word holds the opcode and the operands the decoder looks for. -/
theorem decodeOfEncodeGivesTheCommandBack : Obligations.DecodeOfEncodeGivesTheCommandBack := by
  intro i h
  obtain ⟨hop, hops⟩ := canonicalWord i h
  exact decode_eq_instr_iff.mpr ⟨hop, _, hops.symm⟩

/-- Words are masked field by field. -/
theorem packWord_and (op a b c d op' a' b' c' d' : Byte) :
    packWord op a b c d &&& packWord op' a' b' c' d' =
      packWord (op &&& op') (a &&& a') (b &&& b') (c &&& c') (d &&& d') := by
  simp only [packWord]
  rw [BitVec.and_append, BitVec.and_append, BitVec.and_append, BitVec.and_append]

/-- The word with the fields a to d set to 0. -/
theorem packWord_fieldOp (w : CmdWord) : packWord (fieldOp w) 0#8 0#8 0#8 0#8 = w &&& 0xFF00000000#40 := by
  have hmask : 0xFF00000000#40 = packWord 0xFF#8 0#8 0#8 0#8 0#8 := rfl
  have hkept (v : Byte) : v &&& 0xFF#8 = v := BitVec.and_allOnes
  conv_rhs => rw [← packWord_fields w, hmask, packWord_and]
  simp only [hkept, BitVec.and_zero]

/-- The word with the fields c and d set to 0. -/
theorem packWord_fieldOp_fieldA_fieldB (w : CmdWord) :
    packWord (fieldOp w) (fieldA w) (fieldB w) 0#8 0#8 = w &&& 0xFFFFFF0000#40 := by
  have hmask : 0xFFFFFF0000#40 = packWord 0xFF#8 0xFF#8 0xFF#8 0#8 0#8 := rfl
  have hkept (v : Byte) : v &&& 0xFF#8 = v := BitVec.and_allOnes
  conv_rhs => rw [← packWord_fields w, hmask, packWord_and]
  simp only [hkept, BitVec.and_zero]

/-- A field's number, cut to eight bits, is the field. -/
theorem packFields_toNat (op a b c d : Byte) :
    packFields op.toNat a.toNat b.toNat c.toNat d.toNat = packWord op a b c d := by
  simp [packFields]

/-- A command that ignores no field is encoded as the word it was decoded from (R61). -/
theorem encode_of_four_operands {w : CmdWord} {i : Instr} (h : decode w = .instr i) (hlen : (operandsOf i).length = 4) :
    encode i = w := by
  obtain ⟨hop, ignored, hops⟩ := decode_eq_instr_iff.mp h
  have hnone : ignored = [] := by simpa [hlen] using congrArg List.length hops
  rw [hnone, List.append_nil] at hops
  simp only [encode, hops, ← hop, packFields_toNat, packWord_fields]

/-- Settles O3: the command's operands are fields of the word, which pack to the word again; 0 stands in the ignored ones. -/
theorem encodeOfDecodeClearsOnlyIgnoredFields : Obligations.EncodeOfDecodeClearsOnlyIgnoredFields := by
  intro w i h
  refine ⟨wellFormed_of_decode h, ?_⟩
  obtain ⟨hop, ignored, hops⟩ := decode_eq_instr_iff.mp h
  cases i with
  | clear =>
    rw [← packWord_fieldOp, ← packFields_toNat, hop]
    rfl
  | setpixel x y =>
    simp only [operandsOf, List.cons_append, List.cons.injEq] at hops
    obtain ⟨rfl, rfl, -⟩ := hops
    rw [← packWord_fieldOp_fieldA_fieldB, ← packFields_toNat, hop]
    rfl
  | drawline x1 y1 x2 y2 => exact encode_of_four_operands h rfl
  | drawrect l t r b => exact encode_of_four_operands h rfl
  | fillrect x0 y0 x1 y1 => exact encode_of_four_operands h rfl

/-- Field op is the number in bits [39:32] (R60). -/
theorem fieldOp_toNat (w : CmdWord) : (fieldOp w).toNat = w.toNat / 2 ^ 32 := by
  rw [fieldOp, byteAt_toNat]
  have := w.isLt
  omega

theorem opcodeOf_range (i : Instr) : 1 ≤ opcodeOf i ∧ opcodeOf i ≤ 5 := by
  cases i <;> simp [opcodeOf]

/-- An opcode of 0 or at least 6 is reserved (R64). -/
theorem decode_reserved {w : CmdWord} (h : w.toNat / 2 ^ 32 = 0 ∨ 6 ≤ w.toNat / 2 ^ 32) :
    decode w = .reserved (fieldOp w) := by
  rw [← fieldOp_toNat] at h
  obtain ⟨i, -, hop⟩ | ⟨hres, -⟩ := decode_cases w
  · have := opcodeOf_range i
    omega
  · exact hres

/-- Settles O4: the decoder answers a command or a reserved opcode, and the opcodes of commands are 1 to 5. -/
theorem reservedOpcodesAreZeroAndSixUpwards : Obligations.ReservedOpcodesAreZeroAndSixUpwards := by
  intro w
  refine ⟨⟨?_, fun h => ?_⟩, fun h => ⟨fieldOp w, fieldOp_toNat w, decode_reserved h⟩⟩
  · rintro ⟨i, h⟩
    obtain ⟨hop, -⟩ := decode_eq_instr_iff.mp h
    rw [← fieldOp_toNat, hop]
    exact opcodeOf_range i
  · rw [← fieldOp_toNat] at h
    obtain ⟨i, hi, -⟩ | ⟨-, hop⟩ := decode_cases w
    · exact ⟨i, hi⟩
    · omega

/-- Settles O10: the word decodes to its reserved opcode, which neither the step nor the clocked block acts on. -/
theorem reservedCommandCompletesWithoutEffect : Obligations.ReservedCommandCompletesWithoutEffect := by
  intro s w rest hidle hop
  have hres := decode_reserved hop
  refine ⟨fun hin => step_reserved hidle hin hres, ?_⟩
  rintro p hrst hvalid rfl
  rw [cycle_accept hrst hvalid ((not_busy_iff s).mp hidle), accept_reserved s hres]

/-- Settles O1: six closed words, computed. -/
theorem wordsWrittenOutDecodeToTheirCommands : Obligations.WordsWrittenOutDecodeToTheirCommands := by
  unfold Obligations.WordsWrittenOutDecodeToTheirCommands
  decide

end Sys2Proof
end

section
/-! SUPPORT. The names of the commands (30_encoding.md R71) and the layout of the positioning bytes (R67, R68). -/

namespace Sys2Proof

open Sys2Proof.Machine

/-- The test the assembler puts to its candidates, in order (R71). -/
def hasName (name : String) (i : Instr) : Bool := (name == mnemonicOf i || name == aliasOf i) && i.wellFormed

theorem commandNamed_four (name : String) (p q r t : Nat) :
    commandNamed name [p, q, r, t] = [.drawline p q r t, .drawrect p q r t, .fillrect p q r t].find? (hasName name) := rfl

/-- Either name of a command, with the command's operands, names it: no candidate before it has that name (R71). -/
theorem commandNamed_operandsOf {i : Instr} {name : String} (h : WellFormed i)
    (hname : name = mnemonicOf i ∨ name = aliasOf i) : commandNamed name (operandsOf i) = some i := by
  have hi : hasName name i = true := by simp [hasName, hname, h]
  cases i with
  | clear => exact List.find?_cons_of_pos (p := hasName name) hi
  | setpixel x y => exact List.find?_cons_of_pos (p := hasName name) hi
  | drawline x1 y1 x2 y2 => exact List.find?_cons_of_pos (p := hasName name) hi
  | drawrect l t r b =>
    have hline : ¬hasName name (.drawline l t r b) = true := by
      rcases hname with rfl | rfl <;> simp [hasName, mnemonicOf, aliasOf]
    simp only [operandsOf, commandNamed_four]
    rw [List.find?_cons_of_neg hline, List.find?_cons_of_pos hi]
  | fillrect x0 y0 x1 y1 =>
    have hline : ¬hasName name (.drawline x0 y0 x1 y1) = true := by
      rcases hname with rfl | rfl <;> simp [hasName, mnemonicOf, aliasOf]
    have hrect : ¬hasName name (.drawrect x0 y0 x1 y1) = true := by
      rcases hname with rfl | rfl <;> simp [hasName, mnemonicOf, aliasOf]
    simp only [operandsOf, commandNamed_four]
    rw [List.find?_cons_of_neg hline, List.find?_cons_of_neg hrect, List.find?_cons_of_pos hi]

/-- Settles O6: both names by the lemma above; the three lines are computed. -/
theorem assemblerNamesEveryCommand : Obligations.AssemblerNamesEveryCommand :=
  ⟨fun _ h => ⟨commandNamed_operandsOf h (.inl rfl), commandNamed_operandsOf h (.inr rfl)⟩, by decide, by decide, by decide⟩

/-- The set-column byte has bit 7 set and the column in bits [6:0] (R67). -/
theorem column_event_layout (x : Fin Config.width) :
    (Send.column x).event.value.getLsbD 7 = true ∧ ((Send.column x).event.value.extractLsb' 0 7).toNat = x.val := by
  revert x; decide

/-- The set-bank byte has 01 in bits [7:6], 000 in bits [5:3] and the bank in bits [2:0] (R68). -/
theorem bank_event_layout (b : Fin Config.banks) :
    (Send.bank b).event.value.extractLsb' 6 2 = 0b01#2 ∧ (Send.bank b).event.value.extractLsb' 3 3 = 0b000#3 ∧
      ((Send.bank b).event.value.extractLsb' 0 3).toNat = b.val := by
  revert b; decide

/-- Settles O7: the layout of each byte, and its range from its number. -/
theorem positioningBytesCarryColumnAndBank : Obligations.PositioningBytesCarryColumnAndBank := by
  constructor
  · intro x
    obtain ⟨hbit, hcolumn⟩ := column_event_layout x
    have hnumber := column_event_toNat x
    have hx := column_lt x
    refine ⟨_, rfl, rfl, hbit, hcolumn, ?_⟩
    change 128 ≤ (Send.column x).event.value.toNat ∧ (Send.column x).event.value.toNat ≤ 211
    omega
  · intro b
    obtain ⟨hhigh, hmid, hbank⟩ := bank_event_layout b
    have hnumber := bank_event_toNat b
    have hb := bank_lt b
    refine ⟨_, rfl, rfl, hhigh, hmid, hbank, ?_⟩
    change 64 ≤ (Send.bank b).event.value.toNat ∧ (Send.bank b).event.value.toNat ≤ 69
    omega

end Sys2Proof
end

section
/-! SUPPORT. What one accepted request leaves behind (41_pixel_write.md R91, R94, R95): the cache, its cell, the pixels and the
cursor. -/

namespace Sys2Proof.Machine

open Sys2Proof.Safety

/-- SETPIXEL is its one pixel request (R90). -/
theorem exec_setpixel (x y : Nat) (s : State) : exec (.setpixel x y) s = .next (pixel s (x, y)) := rfl

/-! ### ACC after a request -/

/-- The requested bit is set (R95). -/
theorem accAfter_has_bit (c : Cache) (x y : Nat) : (accAfter c x y).getLsbD (y % 8) = true := by
  have hbit : y % 8 < 8 := Nat.mod_lt y (by decide)
  simp [accAfter, hbit]

theorem accAfter_ne_zero (c : Cache) (x y : Nat) : accAfter c x y ≠ 0#8 := by
  intro hzero
  have hbit := accAfter_has_bit c x y
  simp [hzero] at hbit

/-- Within an x-run the bits of ACC are carried on (R94). -/
theorem accAfter_of_prevx_eq {c : Cache} {x : Nat} (y : Nat) (h : x = c.prevx.toNat) :
    accAfter c x y = c.acc ||| (1#8 <<< (y % 8)) := by
  rw [accAfter, if_pos h]

/-- A new x starts ACC afresh (R91). -/
theorem accAfter_of_prevx_ne {c : Cache} {x : Nat} (y : Nat) (h : x ≠ c.prevx.toNat) :
    accAfter c x y = 1#8 <<< (y % 8) := by
  rw [accAfter, if_neg h, BitVec.zero_or]

/-! ### Pixels and cells -/

/-- A pixel on the surface is a bit of the cell with key `y / 8 * 84 + x` (20_memory.md R41, R42). -/
theorem lit_of_inRange (c : Controller) {x y : Nat} (h : x < 84 ∧ y < 48) :
    c.lit x y = (c.ddram.read (y / 8 * 84 + x)).map fun v => v.getLsbD (y % 8) := by
  rw [Controller.lit, translate_eq_some h]
  rfl

/-- A pixel off the surface is in no cell (R43). -/
theorem lit_of_not_inRange (c : Controller) {x y : Nat} (h : ¬(x < 84 ∧ y < 48)) : c.lit x y = none := by
  rw [Controller.lit, translate_eq_none h]
  rfl

/-- A write takes the place of an earlier one to the same cell (20_memory.md R46). -/
theorem Memory.write_write_same (m : Memory) (a : Nat) (v w : Byte) :
    Memory.write (Memory.write m a v) a w = Memory.write m a w := by
  induction m with
  | nil => simp [Memory.write]
  | cons p m ih =>
    obtain ⟨k, u⟩ := p
    rcases lt_trichotomy a k with hlt | heq | hgt
    · simp [Memory.write, hlt]
    · simp [Memory.write, heq]
    · simp [Memory.write, hgt.not_gt, hgt.ne', ih]

/-- The same data byte once more at the same place leaves the controller as the first left it (R46, R48). -/
theorem apply_data_twice (c : Controller) (v : Byte) :
    Controller.apply { c with ddram := (c.apply (.data v)).ddram } (.data v) = c.apply (.data v) := by
  rw [apply_data_ddram, Controller.apply, Controller.apply, Memory.write_write_same]

/-- A data byte moves the cursor on to the next column, or to column 0 of the next bank (R48). -/
theorem apply_data_cursor (c : Controller) (v : Byte) :
    if c.cx.val < 83 then (c.apply (.data v)).cx.val = c.cx.val + 1 ∧ (c.apply (.data v)).cy.val = c.cy.val
    else (c.apply (.data v)).cx.val = 0 ∧ (c.apply (.data v)).cy.val = (c.cy.val + 1) % 6 := by
  by_cases h : c.cx.val < 83
  · have hnext : c.cx.val + 1 < Config.width := Nat.succ_lt_succ h
    simp [Controller.apply, Controller.advance, h, hnext]
  · have hwrap : ¬c.cx.val + 1 < Config.width := fun hnext => h (Nat.lt_of_succ_lt_succ hnext)
    simp [Controller.apply, Controller.advance, h, hwrap]

/-! ### The state after an accepted request -/

section
variable (s : State) {x y : Nat}

theorem pixel_cache_of_inRange (h : x < 84 ∧ y < 48) :
    (pixel s (x, y)).cache = { acc := accAfter s.cache x y, prevx := BitVec.ofNat 8 x } := by
  rw [pixel_accepted s h]

theorem pixel_acc_of_inRange (h : x < 84 ∧ y < 48) : (pixel s (x, y)).cache.acc = accAfter s.cache x y := by
  rw [pixel_cache_of_inRange s h]

/-- PREVX holds the x of an accepted request whole (10_state.md R22). -/
theorem pixel_prevx_of_inRange (h : x < 84 ∧ y < 48) : (pixel s (x, y)).cache.prevx.toNat = x := by
  rw [pixel_cache_of_inRange s h, BitVec.toNat_ofNat]
  omega

theorem pixel_trace_of_inRange (h : x < 84 ∧ y < 48) :
    (pixel s (x, y)).trace = s.trace ++ pixelEvents s.cache x y := by
  rw [pixel_accepted s h]

/-- ACC is stored with the cursor at the cell of the request (20_memory.md R47). -/
theorem pixel_controller_of_inRange (h : x < 84 ∧ y < 48) :
    (pixel s (x, y)).controller = Controller.apply
      { cx := ⟨x, h.1⟩, cy := ⟨y / 8, Nat.div_lt_of_lt_mul h.2⟩, ddram := s.controller.ddram }
      (.data (accAfter s.cache x y)) := by
  rw [pixel_accepted s h]

/-- An accepted request replaces its own cell with ACC and no other cell (20_memory.md R46). -/
theorem pixel_read_of_inRange (h : x < 84 ∧ y < 48) (a : Nat) :
    Memory.read (pixel s (x, y)).controller.ddram a =
      if a = y / 8 * 84 + x then some (pixel s (x, y)).cache.acc else Memory.read s.controller.ddram a := by
  rw [pixel_controller_of_inRange s h, apply_data_ddram, Memory.read_write, pixel_acc_of_inRange s h, cellKey_eq]

/-- The cursor is past the cell that was written (R48). -/
theorem pixel_cursor_of_inRange (h : x < 84 ∧ y < 48) :
    if x < 83 then (pixel s (x, y)).controller.cx.val = x + 1 ∧ (pixel s (x, y)).controller.cy.val = y / 8
    else (pixel s (x, y)).controller.cx.val = 0 ∧ (pixel s (x, y)).controller.cy.val = (y / 8 + 1) % 6 := by
  rw [pixel_controller_of_inRange s h]
  exact apply_data_cursor ⟨⟨x, h.1⟩, ⟨y / 8, Nat.div_lt_of_lt_mul h.2⟩, _⟩ _

/-- The pixels of the cell an accepted request writes are the bits of ACC (R95). -/
theorem pixel_lit_of_same_cell (h : x < 84 ∧ y < 48) {y' : Nat} (hy' : y' < 48) (hbank : y' / 8 = y / 8) :
    (pixel s (x, y)).controller.lit x y' = some ((pixel s (x, y)).cache.acc.getLsbD (y' % 8)) := by
  rw [lit_of_inRange _ ⟨h.1, hy'⟩, pixel_read_of_inRange s h, hbank, if_pos rfl, Option.map_some]

/-- The pixels of every other cell are as before (R95). -/
theorem pixel_lit_of_other_cell (h : x < 84 ∧ y < 48) {x' y' : Nat} (hne : x' ≠ x ∨ y' / 8 ≠ y / 8) :
    (pixel s (x, y)).controller.lit x' y' = s.controller.lit x' y' := by
  by_cases h' : x' < 84 ∧ y' < 48
  · have hkey : y' / 8 * 84 + x' ≠ y / 8 * 84 + x := by omega
    rw [lit_of_inRange _ h', lit_of_inRange _ h', pixel_read_of_inRange s h, if_neg hkey]
  · rw [lit_of_not_inRange _ h', lit_of_not_inRange _ h']

/-- A second request at the same x sends the first one's bits with its own (R94). -/
theorem pixel_acc_of_same_column {y₁ y₂ : Nat} (h₁ : x < 84 ∧ y₁ < 48) (h₂ : x < 84 ∧ y₂ < 48) :
    (pixel (pixel s (x, y₁)) (x, y₂)).cache.acc = (pixel s (x, y₁)).cache.acc ||| (1#8 <<< (y₂ % 8)) := by
  rw [pixel_acc_of_inRange _ h₂, accAfter_of_prevx_eq y₂ (pixel_prevx_of_inRange s h₁).symm]

/-- A request at another x sends its own bit alone (R91). -/
theorem pixel_acc_of_other_column {x' y' : Nat} (h' : x' < 84 ∧ y' < 48) (h : x < 84 ∧ y < 48) (hne : x ≠ x') :
    (pixel (pixel s (x', y')) (x, y)).cache.acc = 1#8 <<< (y % 8) := by
  have hprevx := pixel_prevx_of_inRange s h'
  rw [pixel_acc_of_inRange _ h, accAfter_of_prevx_ne y (hne.trans_eq hprevx.symm)]

/-- The bit an accepted request asks for is already set for its repetition (R97). -/
theorem accAfter_repeated (h : x < 84 ∧ y < 48) :
    accAfter (pixel s (x, y)).cache x y = accAfter s.cache x y := by
  have hcarried : accAfter (pixel s (x, y)).cache x y = accAfter s.cache x y ||| (1#8 <<< (y % 8)) := by
    rw [accAfter_of_prevx_eq y (pixel_prevx_of_inRange s h).symm, pixel_acc_of_inRange s h]
  rw [hcarried, accAfter, BitVec.or_assoc, BitVec.or_self]

theorem pixelEvents_repeated (h : x < 84 ∧ y < 48) :
    pixelEvents (pixel s (x, y)).cache x y = pixelEvents s.cache x y := by
  rw [pixelEvents, accAfter_repeated s h, pixelEvents]

theorem pixel_cache_repeated (h : x < 84 ∧ y < 48) :
    (pixel (pixel s (x, y)) (x, y)).cache = (pixel s (x, y)).cache := by
  rw [pixel_cache_of_inRange _ h, accAfter_repeated s h, pixel_cache_of_inRange s h]

theorem pixel_controller_repeated (h : x < 84 ∧ y < 48) :
    (pixel (pixel s (x, y)) (x, y)).controller = (pixel s (x, y)).controller := by
  rw [pixel_controller_of_inRange (pixel s (x, y)) h, accAfter_repeated s h, pixel_controller_of_inRange s h]
  exact apply_data_twice ⟨⟨x, h.1⟩, ⟨y / 8, Nat.div_lt_of_lt_mul h.2⟩, _⟩ _

end

/-- Settles O13: the fields of the state after an accepted request, one by one. -/
theorem setpixelInRangeSendsOneByte : Obligations.SetpixelInRangeSendsOneByte := by
  intro s x y hx hy
  have h : x < 84 ∧ y < 48 := ⟨hx, hy⟩
  refine ⟨_, exec_setpixel x y s, pixel_acc_of_inRange s h, ?_, ?_, pixel_requests s _, pixel_running s _,
    pixel_inputs s _, pixel_read_of_inRange s h, pixel_cursor_of_inRange s h⟩
  · rw [pixel_cache_of_inRange s h]
  · rw [pixel_trace_of_inRange s h, pixel_acc_of_inRange s h, pixelEvents]

/-- Settles O15: an accepted request sends its three events, a dropped one is only noted. -/
theorem inRangeSetpixelSendsThreeEventsOthersNone : Obligations.InRangeSetpixelSendsThreeEventsOthersNone := by
  intro s x y
  refine ⟨_, exec_setpixel x y s, fun h => ?_, fun h => ?_⟩
  · exact ⟨_, _, _, pixel_trace_of_inRange s (by omega), rfl, List.Perm.refl _⟩
  · rw [pixel_dropped s (by omega), note_trace]

/-- Settles O16: the data byte is ACC, which has the requested bit; the pixels are read cell by cell. -/
theorem dataByteSetsItsBitAndReplacesTheCell : Obligations.DataByteSetsItsBitAndReplacesTheCell := by
  intro s x y hx hy
  have h : x < 84 ∧ y < 48 := ⟨hx, hy⟩
  have hacc := pixel_acc_of_inRange s h
  refine ⟨_, (pixel s (x, y)).cache.acc, exec_setpixel x y s, ?_, rfl, ?_, ?_,
    fun _ hy' hbank => pixel_lit_of_same_cell s h hy' hbank, fun _ _ hne => pixel_lit_of_other_cell s h hne⟩
  · simp [pixel_trace_of_inRange s h, hacc, pixelEvents]
  · rw [hacc]; exact accAfter_has_bit s.cache x y
  · rw [hacc]; exact accAfter_ne_zero s.cache x y

/-- Settles O17: a repetition finds its x in PREVX and its bit in ACC; with another x between, ACC starts afresh. -/
theorem immediateRepetitionIsIdempotent : Obligations.ImmediateRepetitionIsIdempotent := by
  constructor
  · intro s x y hx hy
    have h : x < 84 ∧ y < 48 := ⟨hx, hy⟩
    refine ⟨_, _, pixelEvents s.cache x y, exec_setpixel x y s, exec_setpixel x y _, rfl, pixel_trace_of_inRange s h, ?_,
      pixel_cache_repeated s h, pixel_controller_repeated s h⟩
    rw [pixel_trace_of_inRange _ h, pixelEvents_repeated s h]
  · intro s
    have h54 : 5 < 84 ∧ 4 < 48 := by decide
    have hacc := pixel_acc_of_other_column (pixel s (5, 3)) (x' := 6) (y' := 3) (by decide) h54 (by decide)
    refine ⟨_, _, _, exec_setpixel 5 3 s, exec_setpixel 6 3 _, exec_setpixel 5 4 _, ?_, ?_⟩
    · rw [pixel_read_of_inRange _ h54, if_pos rfl, hacc]
      rfl
    · rw [pixel_lit_of_same_cell _ h54 (by decide) (by decide), hacc]
      rfl

/-- Settles O18: the second request finds its x in PREVX, so ACC still holds the bit the first one set. -/
theorem sameColumnCarriesBitsAcrossBanks : Obligations.SameColumnCarriesBitsAcrossBanks := by
  intro s x y₁ y₂ hx hy₁ hy₂
  have h₁ : x < 84 ∧ y₁ < 48 := ⟨hx, hy₁⟩
  have h₂ : x < 84 ∧ y₂ < 48 := ⟨hx, hy₂⟩
  have hcarried := pixel_acc_of_same_column s h₁ h₂
  refine ⟨_, _, exec_setpixel x y₁ s, exec_setpixel x y₂ _, hcarried, ?_, ?_⟩
  · rw [pixel_read_of_inRange _ h₂, if_pos rfl]
  · have hrow : (y₂ / 8 * 8 + y₁ % 8) % 8 = y₁ % 8 := by omega
    rw [pixel_lit_of_same_cell _ h₂ (by omega) (by omega), hrow, hcarried, BitVec.getLsbD_or, pixel_acc_of_inRange s h₁,
      accAfter_has_bit, Bool.true_or]

end Sys2Proof.Machine
end

section
/-! SUPPORT. Dropped requests have no effect (41_pixel_write.md R93): drawing does not look at the observer's list of requests,
and but for that list it is the drawing of the accepted requests. -/

namespace Sys2Proof.Machine

open Sys2Proof.Safety

theorem pixel_with_requests (s : State) (r : Request) (qs : List Request) :
    pixel { s with requests := qs } r = { pixel s r with requests := qs ++ [r] } := by
  obtain ⟨x, y⟩ := r
  by_cases h : x < 84 ∧ y < 48
  · rw [pixel_accepted _ h, pixel_accepted _ h]
  · rw [pixel_dropped _ h, pixel_dropped _ h]
    rfl

theorem drawAll_with_requests (s : State) (rs qs : List Request) :
    drawAll { s with requests := qs } rs = { drawAll s rs with requests := qs ++ rs } := by
  induction rs generalizing s qs with
  | nil => simp
  | cons r rs ih => rw [drawAll_cons, pixel_with_requests, ih, drawAll_cons, List.append_assoc, List.singleton_append]

/-- Drawing requests is drawing the accepted ones, with all of them noted (R93). -/
theorem drawAll_eq_drawAll_accepted (s : State) (rs : List Request) :
    drawAll s rs = { drawAll s (accepted rs) with requests := s.requests ++ rs } := by
  induction rs generalizing s with
  | nil => simp
  | cons r rs ih =>
    obtain ⟨x, y⟩ := r
    by_cases h : x < 84 ∧ y < 48
    · rw [drawAll_cons, ih, pixel_requests, accepted_cons_inRange rs h, drawAll_cons, List.append_assoc,
        List.singleton_append]
    · rw [drawAll_cons, ih, pixel_dropped s h, accepted_cons_dropped rs h, note_requests, List.append_assoc,
        List.singleton_append, State.note, drawAll_with_requests]

/-- Settles O24, by the law above; with no accepted request there is nothing to draw. -/
theorem droppedRequestsHaveNoEffect : Obligations.DroppedRequestsHaveNoEffect := by
  intro i s hi
  refine ⟨_, exec_drawing hi s, ?_, fun hnone => ?_⟩
  · rw [drawAll_eq_drawAll_accepted]
  · rw [drawAll_eq_drawAll_accepted, hnone, drawAll_nil]

end Sys2Proof.Machine
end

section
/-! SUPPORT. Distances and unit steps along an axis (42_line.md R101, R102). -/

namespace Sys2Proof.Machine

open Sys2Proof.Safety

@[simp] theorem gap_self (u : Nat) : gap u u = 0 := by simp [gap]

theorem gap_comm (u v : Nat) : gap u v = gap v u := by unfold gap; omega

@[simp] theorem toward_zero (u v : Nat) : toward u v 0 = u := by simp [toward]

theorem toward_gap (u v : Nat) : toward u v (gap u v) = v := by
  unfold toward gap
  split <;> omega

/-- Steps toward the end do not leave the interval (R109). -/
theorem toward_between {u v n : Nat} (hn : n ≤ gap u v) : min u v ≤ toward u v n ∧ toward u v n ≤ max u v := by
  unfold gap at hn
  unfold toward
  split <;> omega

/-- From the other end a place is as many steps away as are left to that end (R107). -/
theorem toward_reverse {u v n : Nat} (hn : n ≤ gap u v) : toward v u (gap u v - n) = toward u v n := by
  unfold toward gap at *
  split <;> split <;> omega

theorem toward_inj {u v m n : Nat} (hm : m ≤ gap u v) (hn : n ≤ gap u v) (h : toward u v m = toward u v n) : m = n := by
  unfold toward gap at *
  split at h <;> omega

theorem nodup_map_toward (u v : Nat) : ((List.range (gap u v + 1)).map (toward u v)).Nodup := by
  refine List.Nodup.map_on (fun m hm n hn h => toward_inj ?_ ?_ h) List.nodup_range
  · exact Nat.le_of_lt_succ (List.mem_range.mp hm)
  · exact Nat.le_of_lt_succ (List.mem_range.mp hn)

end Sys2Proof.Machine
end

section
/-! SUPPORT. The minor steps in closed form (42_line.md R104): they are the numbers that keep the error term in its half-open
interval, whose open end depends on the minor step's sign, as ties do (R103; the spec's decision D11). -/

namespace Sys2Proof.Machine

open Sys2Proof.Safety

/-- The error terms between two iterations: at most `dmaj` in size. An upward tie makes the minor step, so `dmaj` is never
left; a downward tie does not, so `-dmaj` is never left (R103). -/
def ErrorInRange (neg : Bool) (dmaj : Nat) (e : Int) : Prop :=
  if neg then -(dmaj : Int) < e ∧ e ≤ dmaj else -(dmaj : Int) ≤ e ∧ e < dmaj

theorem errorInRange_true {dmaj : Nat} {e : Int} : ErrorInRange true dmaj e ↔ -(dmaj : Int) < e ∧ e ≤ dmaj := Iff.rfl

theorem errorInRange_false {dmaj : Nat} {e : Int} : ErrorInRange false dmaj e ↔ -(dmaj : Int) ≤ e ∧ e < dmaj := by
  simp [ErrorInRange]

theorem errorInRange_zero {dmaj : Nat} (neg : Bool) (hpos : 0 < dmaj) : ErrorInRange neg dmaj 0 := by
  cases neg
  · rw [errorInRange_false]; omega
  · rw [errorInRange_true]; omega

/-- A tie is rounded up on one sign of the step where it is rounded down on the other. -/
theorem errorInRange_not {neg : Bool} {dmaj : Nat} {e : Int} (h : ErrorInRange neg dmaj e) :
    ErrorInRange (!neg) dmaj (-e) := by
  cases neg
  · rw [errorInRange_false] at h; rw [Bool.not_false, errorInRange_true]; omega
  · rw [errorInRange_true] at h; rw [Bool.not_true, errorInRange_false]; omega

/-- The closed form is the one number of minor steps that leaves the error term in its interval (R104). -/
theorem minorSteps_eq_iff {neg : Bool} {dmaj dmin k m : Nat} (hpos : 0 < dmaj) :
    minorSteps neg dmaj dmin k = m ↔ ErrorInRange neg dmaj (2 * (k * dmin : Nat) - 2 * (m * dmaj : Nat)) := by
  have hk : 2 * k * dmin = 2 * (k * dmin) := Nat.mul_assoc ..
  have hm : m * (2 * dmaj) = 2 * (m * dmaj) := Nat.mul_left_comm ..
  cases neg
  · rw [errorInRange_false, minorSteps, if_neg hpos.ne', if_neg Bool.false_ne_true, Nat.div_eq_iff (by omega)]
    omega
  · rw [errorInRange_true, minorSteps, if_neg hpos.ne', if_pos rfl, Nat.div_eq_iff (by omega)]
    omega

@[simp] theorem minorSteps_zero (neg : Bool) (dmaj dmin : Nat) : minorSteps neg dmaj dmin 0 = 0 := by
  rcases Nat.eq_zero_or_pos dmaj with rfl | hpos
  · rfl
  · simpa [minorSteps_eq_iff hpos] using errorInRange_zero neg hpos

@[simp] theorem minorSteps_dmin_zero (neg : Bool) (dmaj k : Nat) : minorSteps neg dmaj 0 k = 0 := by
  rcases Nat.eq_zero_or_pos dmaj with rfl | hpos
  · rfl
  · simpa [minorSteps_eq_iff hpos] using errorInRange_zero neg hpos

/-- At the end of the driving axis all minor steps are made. -/
theorem minorSteps_dmaj {dmaj dmin : Nat} (neg : Bool) (hd : dmin ≤ dmaj) : minorSteps neg dmaj dmin dmaj = dmin := by
  rcases Nat.eq_zero_or_pos dmaj with rfl | hpos
  · exact (Nat.le_zero.mp hd).symm
  · simpa [minorSteps_eq_iff hpos, Nat.mul_comm dmaj] using errorInRange_zero neg hpos

theorem minorSteps_mono (neg : Bool) (dmaj dmin : Nat) {j k : Nat} (h : j ≤ k) :
    minorSteps neg dmaj dmin j ≤ minorSteps neg dmaj dmin k := by
  have hmul : 2 * j * dmin ≤ 2 * k * dmin := Nat.mul_le_mul_right _ (Nat.mul_le_mul_left 2 h)
  unfold minorSteps
  split
  · rfl
  · split <;> exact Nat.div_le_div_right (by omega)

theorem minorSteps_le {dmaj dmin k : Nat} (neg : Bool) (hd : dmin ≤ dmaj) (hk : k ≤ dmaj) :
    minorSteps neg dmaj dmin k ≤ dmin :=
  (minorSteps_mono neg dmaj dmin hk).trans_eq (minorSteps_dmaj neg hd)

/-- A driving step comes with at most one minor step (R103). -/
theorem minorSteps_succ_le {dmaj dmin : Nat} (neg : Bool) (hd : dmin ≤ dmaj) (k : Nat) :
    minorSteps neg dmaj dmin (k + 1) ≤ minorSteps neg dmaj dmin k + 1 := by
  have hmul : 2 * (k + 1) * dmin = 2 * k * dmin + 2 * dmin := by ring
  unfold minorSteps
  split
  · omega
  · rename_i hne
    have hpos : 0 < 2 * dmaj := by omega
    split <;> rw [← Nat.add_div_right _ hpos] <;> exact Nat.div_le_div_right (by omega)

/-- With the minor step's sign turned, the minor steps from the far end are those still to come (R107). -/
theorem minorSteps_reverse {neg : Bool} {dmaj dmin k : Nat} (hd : dmin ≤ dmaj) (hk : k ≤ dmaj) :
    minorSteps (!neg) dmaj dmin (dmaj - k) = dmin - minorSteps neg dmaj dmin k := by
  rcases Nat.eq_zero_or_pos dmaj with rfl | hpos
  · simp [Nat.le_zero.mp hd]
  · have hle := minorSteps_le neg hd hk
    have herr := errorInRange_not ((minorSteps_eq_iff (neg := neg) (dmin := dmin) (k := k) hpos).mp rfl)
    generalize minorSteps neg dmaj dmin k = m at *
    rw [minorSteps_eq_iff hpos]
    convert herr using 1
    push_cast [hk, hle]
    ring

/-- The minor coordinate from the far end is that from the near end (R107). With no minor step to make the sign does not
turn, and nothing moves. -/
theorem toward_minorSteps_reverse {u v dmaj k : Nat} (hd : gap u v ≤ dmaj) (hk : k ≤ dmaj) :
    toward v u (minorSteps (decide (u < v)) dmaj (gap u v) (dmaj - k)) =
      toward u v (minorSteps (decide (v < u)) dmaj (gap u v) k) := by
  by_cases huv : u = v
  · subst huv; simp
  · have hsign : decide (u < v) = !decide (v < u) := by
      rw [← decide_not]
      exact decide_eq_decide.mpr (by omega)
    rw [hsign, minorSteps_reverse hd hk, toward_reverse (minorSteps_le _ hd hk)]

end Sys2Proof.Machine
end

section
/-! SUPPORT. The line the machine draws is the line of the closed form (42_line.md R104). -/

namespace Sys2Proof.Machine

open Sys2Proof.Safety

theorem linePoint_of_xmajor {x1 y1 x2 y2 : Nat} (k : Nat) (h : gap y1 y2 ≤ gap x1 x2) :
    linePoint x1 y1 x2 y2 k =
      (toward x1 x2 k, toward y1 y2 (minorSteps (decide (y2 < y1)) (gap x1 x2) (gap y1 y2) k)) :=
  if_pos h

theorem linePoint_of_ymajor {x1 y1 x2 y2 : Nat} (k : Nat) (h : gap x1 x2 < gap y1 y2) :
    linePoint x1 y1 x2 y2 k =
      (toward x1 x2 (minorSteps (decide (x2 < x1)) (gap y1 y2) (gap x1 x2) k), toward y1 y2 k) :=
  if_neg h.not_ge

theorem linePoint_zero (x1 y1 x2 y2 : Nat) : linePoint x1 y1 x2 y2 0 = (x1, y1) := by
  rcases le_or_gt (gap y1 y2) (gap x1 x2) with h | h
  · simp [linePoint_of_xmajor 0 h]
  · simp [linePoint_of_ymajor 0 h]

/-- A line ends at its end point (R104). -/
theorem linePoint_last (x1 y1 x2 y2 : Nat) : linePoint x1 y1 x2 y2 (max (gap x1 x2) (gap y1 y2)) = (x2, y2) := by
  rcases le_or_gt (gap y1 y2) (gap x1 x2) with h | h
  · rw [max_eq_left h, linePoint_of_xmajor _ h, minorSteps_dmaj _ h, toward_gap, toward_gap]
  · rw [max_eq_right h.le, linePoint_of_ymajor _ h, minorSteps_dmaj _ h.le, toward_gap, toward_gap]

/-- The pixels of a line lie between its ends (R109). -/
theorem linePoint_between {x1 y1 x2 y2 k : Nat} (hk : k ≤ max (gap x1 x2) (gap y1 y2)) :
    (min x1 x2 ≤ (linePoint x1 y1 x2 y2 k).1 ∧ (linePoint x1 y1 x2 y2 k).1 ≤ max x1 x2) ∧
      min y1 y2 ≤ (linePoint x1 y1 x2 y2 k).2 ∧ (linePoint x1 y1 x2 y2 k).2 ≤ max y1 y2 := by
  rcases le_or_gt (gap y1 y2) (gap x1 x2) with h | h
  · rw [max_eq_left h] at hk
    rw [linePoint_of_xmajor _ h]
    exact ⟨toward_between hk, toward_between (minorSteps_le _ h hk)⟩
  · rw [max_eq_right h.le] at hk
    rw [linePoint_of_ymajor _ h]
    exact ⟨toward_between (minorSteps_le _ h.le hk), toward_between hk⟩

/-- The `k`-th pixel from the far end is the `k`-th to the last from the near end (R107). -/
theorem linePoint_reverse {x1 y1 x2 y2 k : Nat} (hk : k ≤ max (gap x1 x2) (gap y1 y2)) :
    linePoint x2 y2 x1 y1 (max (gap x1 x2) (gap y1 y2) - k) = linePoint x1 y1 x2 y2 k := by
  rcases le_or_gt (gap y1 y2) (gap x1 x2) with h | h
  · rw [max_eq_left h] at hk ⊢
    rw [linePoint_of_xmajor _ (by rwa [gap_comm y2, gap_comm x2]), linePoint_of_xmajor _ h, gap_comm y2, gap_comm x2,
      toward_reverse hk, toward_minorSteps_reverse h hk]
  · rw [max_eq_right h.le] at hk ⊢
    rw [linePoint_of_ymajor _ (by rwa [gap_comm y2, gap_comm x2]), linePoint_of_ymajor _ h, gap_comm y2, gap_comm x2,
      toward_reverse hk, toward_minorSteps_reverse h.le hk]

/-! ### The iterations -/

/-- An advance keeps the error term in its interval (R103). -/
theorem advance_errorInRange {p : LineParams} {q : LinePos} (hd : p.dmin ≤ p.dmaj)
    (h : ErrorInRange p.minorNeg p.dmaj q.e) : ErrorInRange p.minorNeg p.dmaj (p.advance q).e := by
  rw [LineParams.advance_eq]
  cases hneg : p.minorNeg with
  | true =>
    rw [hneg, errorInRange_true] at h
    simp only [errorInRange_true, LineParams.crossesAt, crosses, hneg, if_true, decide_eq_true_eq]
    split <;> omega
  | false =>
    rw [hneg, errorInRange_false] at h
    simp only [errorInRange_false, LineParams.crossesAt, crosses, hneg, Bool.false_eq_true, if_false, decide_eq_true_eq]
    split <;> omega

/-- Where a line's `k`-th iteration stands (R101). -/
def lineAfter (x1 y1 x2 y2 k : Nat) : LinePos := (lineParams x1 y1 x2 y2).advance^[k] { x := x1, y := y1, e := 0 }

theorem lineAfter_zero (x1 y1 x2 y2 : Nat) : lineAfter x1 y1 x2 y2 0 = { x := x1, y := y1, e := 0 } := rfl

theorem lineAfter_succ (x1 y1 x2 y2 k : Nat) :
    lineAfter x1 y1 x2 y2 (k + 1) = (lineParams x1 y1 x2 y2).advance (lineAfter x1 y1 x2 y2 k) :=
  Function.iterate_succ_apply' ..

theorem exists_lineAt_lineAfter (x1 y1 x2 y2 k : Nat) : ∃ m, LineAt x1 y1 x2 y2 k m (lineAfter x1 y1 x2 y2 k) := by
  induction k with
  | zero => exact ⟨0, LineAt.start x1 y1 x2 y2⟩
  | succ k ih =>
    obtain ⟨m, hm⟩ := ih
    rw [lineAfter_succ]
    exact ⟨_, hm.advance⟩

theorem lineAfter_errorInRange {x1 y1 x2 y2 : Nat} (k : Nat) (hpos : 0 < (lineParams x1 y1 x2 y2).dmaj) :
    ErrorInRange (lineParams x1 y1 x2 y2).minorNeg (lineParams x1 y1 x2 y2).dmaj (lineAfter x1 y1 x2 y2 k).e := by
  induction k with
  | zero => exact errorInRange_zero _ hpos
  | succ k ih =>
    rw [lineAfter_succ]
    exact advance_errorInRange (lineParams_dmin_le_dmaj x1 y1 x2 y2) ih

/-- After `k` advances the minor axis has made the steps of the closed form (R104). -/
theorem lineAt_minorSteps {x1 y1 x2 y2 k : Nat} (hk : k ≤ (lineParams x1 y1 x2 y2).dmaj) :
    LineAt x1 y1 x2 y2 k
      (minorSteps (lineParams x1 y1 x2 y2).minorNeg (lineParams x1 y1 x2 y2).dmaj (lineParams x1 y1 x2 y2).dmin k)
      (lineAfter x1 y1 x2 y2 k) := by
  rcases Nat.eq_zero_or_pos (lineParams x1 y1 x2 y2).dmaj with hzero | hpos
  · obtain rfl : k = 0 := by omega
    rw [minorSteps_zero]
    exact LineAt.start x1 y1 x2 y2
  · obtain ⟨m, hm⟩ := exists_lineAt_lineAfter x1 y1 x2 y2 k
    have herr := lineAfter_errorInRange k hpos
    rw [hm.e, ← minorSteps_eq_iff hpos] at herr
    rwa [herr]

theorem lineParams_xmajor (x1 y1 x2 y2 : Nat) :
    (lineParams x1 y1 x2 y2).xmajor = decide (gap y1 y2 ≤ gap x1 x2) := by
  simp only [lineParams, xMajor, magnitude_eq_gap]

/-- After `k` advances the line stands on the `k`-th pixel of the closed form (R104). -/
theorem lineAfter_eq_linePoint {x1 y1 x2 y2 k : Nat} (hk : k ≤ (lineParams x1 y1 x2 y2).dmaj) :
    ((lineAfter x1 y1 x2 y2 k).x, (lineAfter x1 y1 x2 y2 k).y) = linePoint x1 y1 x2 y2 k := by
  have hat := lineAt_minorSteps hk
  rw [hat.x, hat.y, LineParams.minorNeg, lineParams_xmajor, lineParams_dmaj, lineParams_dmin]
  rcases le_or_gt (gap y1 y2) (gap x1 x2) with h | h
  · rw [linePoint_of_xmajor _ h]
    simp [h, lineParams, stepNeg]
  · rw [linePoint_of_ymajor _ h]
    simp [h.not_ge, h.le, lineParams, stepNeg]

/-- A line requests the pixels of the closed form in order (R104). -/
theorem lineRequests_eq_map_linePoint (x1 y1 x2 y2 : Nat) :
    lineRequests x1 y1 x2 y2 = (List.range (max (gap x1 x2) (gap y1 y2) + 1)).map (linePoint x1 y1 x2 y2) := by
  rw [lineRequests, lineFrom_eq_map, ← lineParams_dmaj]
  exact List.map_congr_left fun k hk => lineAfter_eq_linePoint (Nat.le_of_lt_succ (List.mem_range.mp hk))

/-- The driving coordinate of an x-major line runs through its values (R105). -/
theorem lineRequests_map_fst {x1 y1 x2 y2 : Nat} (h : gap y1 y2 ≤ gap x1 x2) :
    (lineRequests x1 y1 x2 y2).map Prod.fst = (List.range (gap x1 x2 + 1)).map (toward x1 x2) := by
  rw [lineRequests_eq_map_linePoint, max_eq_left h, List.map_map]
  exact List.map_congr_left fun k _ => congrArg Prod.fst (linePoint_of_xmajor k h)

/-- The driving coordinate of a y-major line runs through its values (R105). -/
theorem lineRequests_map_snd {x1 y1 x2 y2 : Nat} (h : gap x1 x2 < gap y1 y2) :
    (lineRequests x1 y1 x2 y2).map Prod.snd = (List.range (gap y1 y2 + 1)).map (toward y1 y2) := by
  rw [lineRequests_eq_map_linePoint, max_eq_right h.le, List.map_map]
  exact List.map_congr_left fun k _ => congrArg Prod.snd (linePoint_of_ymajor k h)

theorem lineRequests_nodup (x1 y1 x2 y2 : Nat) : (lineRequests x1 y1 x2 y2).Nodup := by
  rcases le_or_gt (gap y1 y2) (gap x1 x2) with h | h
  · refine .of_map Prod.fst ?_
    rw [lineRequests_map_fst h]
    exact nodup_map_toward x1 x2
  · refine .of_map Prod.snd ?_
    rw [lineRequests_map_snd h]
    exact nodup_map_toward y1 y2

theorem linePoint_horizontal (u v w k : Nat) : linePoint u w v w k = (toward u v k, w) := by
  simp [linePoint_of_xmajor k (show gap w w ≤ gap u v by simp)]

theorem linePoint_vertical {u v k : Nat} (w : Nat) (hk : k ≤ gap u v) : linePoint w u w v k = (w, toward u v k) := by
  rcases Nat.eq_zero_or_pos (gap u v) with hzero | hpos
  · obtain rfl : k = 0 := by omega
    rw [linePoint_zero, toward_zero]
  · simp [linePoint_of_ymajor k (show gap w w < gap u v by simpa using hpos)]

/-- A horizontal line requests the pixels between its ends in order (R108). -/
theorem lineRequests_horizontal (u v w : Nat) :
    lineRequests u w v w = (List.range (gap u v + 1)).map fun k => (toward u v k, w) := by
  rw [lineRequests_eq_map_linePoint, gap_self, Nat.max_zero]
  exact List.map_congr_left fun k _ => linePoint_horizontal u v w k

/-- A vertical line requests the pixels between its ends in order (R108). -/
theorem lineRequests_vertical (u v w : Nat) :
    lineRequests w u w v = (List.range (gap u v + 1)).map fun k => (w, toward u v k) := by
  rw [lineRequests_eq_map_linePoint, gap_self, Nat.zero_max]
  exact List.map_congr_left fun k hk => linePoint_vertical w (Nat.le_of_lt_succ (List.mem_range.mp hk))

/-- A line with both endpoints equal is one request (R106). -/
theorem lineRequests_point (x y : Nat) : lineRequests x y x y = [(x, y)] := by
  simp [lineRequests_horizontal]

/-- Exchanging the endpoints reverses the requests (R107). -/
theorem lineRequests_reverse (x1 y1 x2 y2 : Nat) : lineRequests x2 y2 x1 y1 = (lineRequests x1 y1 x2 y2).reverse := by
  refine List.ext_getElem (by simp [gap_comm]) fun k hk _ => ?_
  rw [lineRequests_length] at hk
  simp [lineRequests_eq_map_linePoint, ← linePoint_reverse (Nat.le_of_lt_succ hk), gap_comm x2, gap_comm y2]

end Sys2Proof.Machine
end

section
/-! SUPPORT. DRAWLINE (42_line.md R100 to R111). -/

namespace Sys2Proof.Machine

open Sys2Proof.Safety

theorem exec_drawline (x1 y1 x2 y2 : Nat) (s : State) :
    exec (.drawline x1 y1 x2 y2) s = .next (drawAll s (lineRequests x1 y1 x2 y2)) := rfl

/-- Settles O28: the requests are those of the closed form, by the interval of the error term. -/
theorem lineRequestsAreTheNearestPixels : Obligations.LineRequestsAreTheNearestPixels := by
  intro x1 y1 x2 y2 s dmaj dmin
  have hd : dmin ≤ dmaj := min_le_max
  refine ⟨⟨_, exec_drawline x1 y1 x2 y2 s, ?_⟩, linePoint_zero x1 y1 x2 y2, linePoint_last x1 y1 x2 y2,
    fun neg k _ => ?_⟩
  · rw [drawAll_requests, lineRequests_eq_map_linePoint]
  · exact ⟨minorSteps_mono neg dmaj dmin k.le_succ, minorSteps_succ_le neg hd k⟩

/-- Settles O29: the driving coordinate takes each of its values once, which makes the requests different. -/
theorem lineMakesMaxPlusOneRequests : Obligations.LineMakesMaxPlusOneRequests := fun x1 y1 x2 y2 s =>
  ⟨_, _, exec_drawline x1 y1 x2 y2 s, drawAll_requests s _, lineRequests_length x1 y1 x2 y2,
    lineRequests_nodup x1 y1 x2 y2, lineRequests_map_fst, lineRequests_map_snd⟩

/-- Settles O31: the ties of one direction are the ties of the other; the last byte sent to bank 1 of column 0 differs. -/
theorem lineIsSymmetricInItsRequests : Obligations.LineIsSymmetricInItsRequests :=
  ⟨lineRequests_reverse, _, _, exec_drawline 0 0 0 10 _, exec_drawline 0 10 0 0 _, by decide, by decide⟩

/-- Settles O32: with no minor difference the closed form has no minor steps. -/
theorem axisAlignedLinesAreStraight : Obligations.AxisAlignedLinesAreStraight := by
  intro u v w s
  refine ⟨⟨_, exec_drawline u w v w s, ?_⟩, ⟨_, exec_drawline w u w v s, ?_⟩⟩
  · rw [drawAll_requests, lineRequests_horizontal]
  · rw [drawAll_requests, lineRequests_vertical]

/-- Settles O33: the error term is even and at most `dmaj` in size; with `dmin = 255` both magnitudes are equal, so it is a
multiple of 510. -/
theorem lineArithmeticStaysInRange : Obligations.LineArithmeticStaysInRange := by
  intro x1 y1 x2 y2 k hx1 hy1 hx2 hy2 p q hk
  have hpixel : (q.x, q.y) = linePoint x1 y1 x2 y2 k := lineAfter_eq_linePoint hk
  have hmaj : p.dmaj = max (gap x1 x2) (gap y1 y2) := lineParams_dmaj x1 y1 x2 y2
  have hmin : p.dmin ≤ p.dmaj := lineParams_dmin_le_dmaj x1 y1 x2 y2
  have hmajle : p.dmaj ≤ 255 := hmaj.trans_le (max_le (gap_le hx1 hx2) (gap_le hy1 hy2))
  obtain ⟨⟨hxmin, hxmax⟩, hymin, hymax⟩ := linePoint_between (hk.trans_eq hmaj)
  rw [← hpixel] at hxmin hxmax hymin hymax
  obtain ⟨m, hat⟩ := exists_lineAt_lineAfter x1 y1 x2 y2 k
  have he : q.e = 2 * (k * p.dmin : Nat) - 2 * (m * p.dmaj : Nat) := hat.e
  have hle : q.e.natAbs ≤ p.dmaj := hat.e_le
  have hsum : q.e + 2 * (p.dmin : Int) ≤ 762 := by
    by_cases hfull : p.dmin = 255
    · have hmajfull : p.dmaj = 255 := by omega
      rw [hfull, hmajfull] at he
      omega
    · omega
  refine ⟨hxmin, hxmax, hymin, hymax, ?_, ?_, hsum, ?_, hmin⟩ <;> omega

/-- Settles O34: drawing is drawing the accepted requests, with all of them noted (41_pixel_write.md R93). -/
theorem lineClipsPixelByPixel : Obligations.LineClipsPixelByPixel := by
  refine ⟨fun x1 y1 x2 y2 s => ⟨_, exec_drawline x1 y1 x2 y2 s, drawAll_requests s _, ?_, ?_, ?_, fun hoff => ?_⟩,
    lineRequests_length 80 46 90 50, by decide⟩
  · rw [drawAll_eq_drawAll_accepted]
  · rw [drawAll_eq_drawAll_accepted]
  · rw [drawAll_eq_drawAll_accepted]
  · have hnone : accepted (lineRequests x1 y1 x2 y2) = [] :=
      List.filter_eq_nil_iff.mpr fun r hr => (inRange_iff r.1 r.2).not.mpr (hoff r hr)
    rw [drawAll_eq_drawAll_accepted, hnone]
    exact ⟨rfl, rfl⟩

/-- Settles O30: a line with both endpoints equal is its first pixel (R106). -/
theorem degenerateLineIsOnePixel : Obligations.DegenerateLineIsOnePixel := by
  intro x y s
  refine ⟨_, ?_, exec_setpixel x y s, pixel_requests s (x, y), fun hoff => ?_⟩
  · rw [exec_drawline, lineRequests_point, drawAll_cons, drawAll_nil]
  · rw [pixel_dropped s hoff, note_trace]

end Sys2Proof.Machine
end

section
/-! SUPPORT. Data bytes of requests of which no two share a column (41_pixel_write.md R91, 42_line.md R111). -/

namespace Sys2Proof.Machine

open Sys2Proof.Safety

@[simp] theorem dataBytes_append (es fs : List TxEvent) : dataBytes (es ++ fs) = dataBytes es ++ dataBytes fs := by
  simp [dataBytes]

/-- The one data byte of an accepted request is ACC (R91). -/
@[simp] theorem dataBytes_pixelEvents (c : Cache) (x y : Nat) : dataBytes (pixelEvents c x y) = [accAfter c x y] := rfl

theorem newEvents_drawAll (s : State) (rs : List Request) : newEvents s (drawAll s rs) = (drawEffect rs s.cache).1 := by
  rw [newEvents, (drawAll_effect s rs).1, List.drop_left]

/-- When every accepted request has a new x, each data byte has the bit of its own row and no other (R111). -/
theorem dataBytes_drawEffect_of_new_columns {rs : List Request} {c : Cache} (hcolumns : (rs.map Prod.fst).Nodup)
    (hfirst : ∀ r, (accepted rs).head? = some r → r.1 ≠ c.prevx.toNat) :
    dataBytes (drawEffect rs c).1 = (accepted rs).map fun r => 1#8 <<< (r.2 % 8) := by
  induction rs generalizing c with
  | nil => rfl
  | cons r rs ih =>
    obtain ⟨x, y⟩ := r
    obtain ⟨hnew, hrest⟩ := List.nodup_cons.mp hcolumns
    by_cases h : x < 84 ∧ y < 48
    · have hown : x ≠ c.prevx.toNat := hfirst (x, y) (by rw [accepted_cons_inRange rs h]; rfl)
      have hx : (BitVec.ofNat 8 x).toNat = x := by rw [BitVec.toNat_ofNat]; omega
      have hnext : ∀ r, (accepted rs).head? = some r → r.1 ≠ (BitVec.ofNat 8 x).toNat := by
        intro r hr heq
        have hmem : r ∈ rs := List.mem_of_mem_filter (List.mem_of_head? hr)
        exact hnew (List.mem_map.mpr ⟨r, hmem, heq.trans hx⟩)
      rw [accepted_cons_inRange rs h, List.map_cons, ← accAfter_of_prevx_ne y hown,
        ← ih (c := { acc := accAfter c x y, prevx := BitVec.ofNat 8 x }) hrest hnext]
      simp [drawEffect, h]
    · rw [accepted_cons_dropped rs h] at hfirst ⊢
      simpa only [drawEffect, if_neg h] using ih hrest hfirst

/-- Settles O35: an x-major line has one request a column. -/
theorem xMajorLineSendsSingleBits : Obligations.XMajorLineSendsSingleBits := by
  intro x1 y1 x2 y2 s hmajor _ hfirst
  refine ⟨_, exec_drawline x1 y1 x2 y2 s, ?_⟩
  rw [newEvents_drawAll]
  refine dataBytes_drawEffect_of_new_columns ?_ hfirst
  rw [lineRequests_map_fst hmajor]
  exact nodup_map_toward x1 x2

end Sys2Proof.Machine
end

section
/-! SUPPORT. The pixels of straight lines and of outlines (42_line.md R108, 43_rectangles.md R115 to R118): an outline's two
horizontal edges share no pixel when they differ, nor do its two vertical ones, and the two pairs meet in the four corners. -/

namespace Sys2Proof.Machine

open Sys2Proof.Safety

/-- The steps from `u` to `v` are the values between them. -/
theorem mem_map_toward {u v n : Nat} :
    n ∈ (List.range (gap u v + 1)).map (toward u v) ↔ min u v ≤ n ∧ n ≤ max u v := by
  rw [List.mem_map]
  constructor
  · rintro ⟨k, hk, rfl⟩
    exact toward_between (Nat.le_of_lt_succ (List.mem_range.mp hk))
  · intro hn
    refine ⟨gap u n, List.mem_range.mpr ?_, ?_⟩
    · unfold gap; omega
    · unfold toward gap; split <;> omega

theorem mem_lineRequests_horizontal {u v w x y : Nat} :
    (x, y) ∈ lineRequests u w v w ↔ y = w ∧ min u v ≤ x ∧ x ≤ max u v := by
  rw [lineRequests_horizontal, ← mem_map_toward]
  simp only [List.mem_map, Prod.mk.injEq, eq_comm (a := w)]
  tauto

theorem mem_lineRequests_vertical {u v w x y : Nat} :
    (x, y) ∈ lineRequests w u w v ↔ x = w ∧ min u v ≤ y ∧ y ≤ max u v := by
  rw [lineRequests_vertical, ← mem_map_toward]
  simp only [List.mem_map, Prod.mk.injEq, eq_comm (a := w)]
  tauto

/-- The two horizontal edges of an outline (R115). -/
def rowEdges (l t r b : Nat) : List Request := lineRequests l t r t ++ lineRequests l b r b

/-- The two vertical edges of an outline (R115). -/
def columnEdges (l t r b : Nat) : List Request := lineRequests l t l b ++ lineRequests r t r b

/-- The corners of an outline. -/
def corners (l t r b : Nat) : List Request := [(l, t), (r, t), (l, b), (r, b)]

section
variable {l t r b x y : Nat}

/-- An outline is its horizontal edges and then its vertical ones (R116). -/
theorem rectRequests_eq_append (l t r b : Nat) : rectRequests l t r b = rowEdges l t r b ++ columnEdges l t r b := by
  simp [rectRequests, rowEdges, columnEdges]

@[simp] theorem rowEdges_length (l t r b : Nat) : (rowEdges l t r b).length = 2 * gap l r + 2 := by
  simp only [rowEdges, List.length_append, lineRequests_length, gap_self]
  omega

@[simp] theorem columnEdges_length (l t r b : Nat) : (columnEdges l t r b).length = 2 * gap t b + 2 := by
  simp only [columnEdges, List.length_append, lineRequests_length, gap_self]
  omega

theorem mem_rowEdges : (x, y) ∈ rowEdges l t r b ↔ (y = t ∨ y = b) ∧ min l r ≤ x ∧ x ≤ max l r := by
  rw [rowEdges, List.mem_append, mem_lineRequests_horizontal, mem_lineRequests_horizontal, or_and_right]

theorem mem_columnEdges : (x, y) ∈ columnEdges l t r b ↔ (x = l ∨ x = r) ∧ min t b ≤ y ∧ y ≤ max t b := by
  rw [columnEdges, List.mem_append, mem_lineRequests_vertical, mem_lineRequests_vertical, or_and_right]

theorem mem_rectRequests :
    (x, y) ∈ rectRequests l t r b ↔
      ((x = l ∨ x = r) ∧ min t b ≤ y ∧ y ≤ max t b) ∨ ((y = t ∨ y = b) ∧ min l r ≤ x ∧ x ≤ max l r) := by
  rw [rectRequests_eq_append, List.mem_append, mem_rowEdges, mem_columnEdges, or_comm]

theorem mem_corners : (x, y) ∈ corners l t r b ↔ (x = l ∨ x = r) ∧ (y = t ∨ y = b) := by
  simp only [corners, List.mem_cons, Prod.mk.injEq, List.not_mem_nil, or_false]
  tauto

/-- The horizontal edges meet the vertical ones in the corners. -/
theorem mem_rowEdges_and_columnEdges :
    (x, y) ∈ rowEdges l t r b ∧ (x, y) ∈ columnEdges l t r b ↔ (x, y) ∈ corners l t r b := by
  rw [mem_rowEdges, mem_columnEdges, mem_corners]
  omega

theorem rowEdges_nodup (h : t ≠ b) : (rowEdges l t r b).Nodup := by
  refine List.Nodup.append (lineRequests_nodup ..) (lineRequests_nodup ..) fun ⟨x, y⟩ htop hbottom => h ?_
  exact (mem_lineRequests_horizontal.mp htop).1.symm.trans (mem_lineRequests_horizontal.mp hbottom).1

theorem columnEdges_nodup (h : l ≠ r) : (columnEdges l t r b).Nodup := by
  refine List.Nodup.append (lineRequests_nodup ..) (lineRequests_nodup ..) fun ⟨x, y⟩ hleft hright => h ?_
  exact (mem_lineRequests_vertical.mp hleft).1.symm.trans (mem_lineRequests_vertical.mp hright).1

theorem corners_nodup (hlr : l ≠ r) (htb : t ≠ b) : (corners l t r b).Nodup := by
  simp [corners, hlr, htb, hlr.symm]

/-- An outline requests a pixel once for its horizontal edges and once for its vertical ones: the corners twice (R117). -/
theorem rectRequests_count (hlr : l ≠ r) (htb : t ≠ b) (q : Request) :
    (rectRequests l t r b).count q = if q ∈ corners l t r b then 2 else if q ∈ rectRequests l t r b then 1 else 0 := by
  obtain ⟨x, y⟩ := q
  rw [rectRequests_eq_append, List.count_append, (rowEdges_nodup htb).count, (columnEdges_nodup hlr).count]
  by_cases hrow : (x, y) ∈ rowEdges l t r b <;> by_cases hcolumn : (x, y) ∈ columnEdges l t r b <;>
    simp [← mem_rowEdges_and_columnEdges, hrow, hcolumn]

/-- The pixels of an outline are those of its two pairs of edges, but for the corners, which both pairs have (R117). -/
theorem rectRequests_dedup_length (hlr : l ≠ r) (htb : t ≠ b) :
    (rectRequests l t r b).dedup.length = 2 * gap l r + 2 * gap t b := by
  have hinter : (rowEdges l t r b).toFinset ∩ (columnEdges l t r b).toFinset = (corners l t r b).toFinset := by
    ext ⟨x, y⟩
    simpa only [Finset.mem_inter, List.mem_toFinset] using mem_rowEdges_and_columnEdges
  have hcard := Finset.card_union_add_card_inter (rowEdges l t r b).toFinset (columnEdges l t r b).toFinset
  rw [hinter, ← List.toFinset_append, ← rectRequests_eq_append, List.card_toFinset,
    List.toFinset_card_of_nodup (rowEdges_nodup htb), List.toFinset_card_of_nodup (columnEdges_nodup hlr),
    List.toFinset_card_of_nodup (corners_nodup hlr htb), rowEdges_length, columnEdges_length] at hcard
  have hfour : (corners l t r b).length = 4 := rfl
  omega

end

/-- Settles O36: DRAWRECT is its four lines by definition; its two pairs of edges meet in the four corners and nowhere else. -/
theorem outlineRequestsThePerimeter : Obligations.OutlineRequestsThePerimeter := by
  intro l t r b s
  refine ⟨⟨_, _, _, rect l t r b s, rfl, rfl, rfl, rfl, rfl, ?_⟩, ?_, fun hlr htb => ⟨?_, fun x y => ?_⟩⟩
  · rw [rect_eq_drawAll, drawAll_requests, requestsOf]
  · rw [requestsOf, rectRequests_eq_append, List.length_append, rowEdges_length, columnEdges_length]
    omega
  · exact rectRequests_dedup_length hlr htb
  · simp only [requestsOf, rectRequests_count hlr htb, mem_corners, mem_rectRequests]

/-- Settles O37: an edge of length zero is one pixel; the perimeter does not tell left from right or top from bottom. -/
theorem degenerateAndReversedOutlines : Obligations.DegenerateAndReversedOutlines := by
  intro l t r b
  simp only [requestsOf]
  refine ⟨?_, ?_, ?_, fun ⟨x, y⟩ => ⟨?_, ?_⟩⟩
  · simp [rectRequests, lineRequests_point]
  · simp [rectRequests, lineRequests_point]
  · simp [rectRequests, lineRequests_point]
  · rw [mem_rectRequests, mem_rectRequests, min_comm r, max_comm r, or_comm (a := x = r)]
  · rw [mem_rectRequests, mem_rectRequests, min_comm b, max_comm b, or_comm (a := y = b)]

end Sys2Proof.Machine
end

section
/-! SUPPORT. Fills as products of their columns and rows (43_rectangles.md R120 to R125). -/

namespace Sys2Proof.Machine

open Sys2Proof.Safety

/-- A fill requests every row from y0 to y1 in each of its columns, column after column (R120, R123). -/
theorem fillRequests_eq_product (includeX1 : Bool) (x0 y0 x1 y1 : Nat) :
    fillRequests includeX1 x0 y0 x1 y1 =
      fillColumns includeX1 x0 x1 ×ˢ (List.range (gap y0 y1 + 1)).map (toward y0 y1) := by
  simp only [fillRequests, lineRequests_vertical]
  simp only [SProd.sprod, List.product, List.map_map, Function.comp_def]

theorem fillColumns_nodup (x0 x1 : Nat) : (fillColumns Config.fillIncludeX1 x0 x1).Nodup := by
  rw [fillColumns_eq]
  exact (nodup_map_toward x0 x1).sublist ((List.range_sublist.mpr (Nat.le_succ _)).map _)

/-- The column at x1 would be the next one (R121). -/
theorem not_mem_fillColumns (x0 x1 : Nat) : x1 ∉ fillColumns Config.fillIncludeX1 x0 x1 := by
  rw [fillColumns_eq, List.mem_map]
  rintro ⟨k, hk, hlast⟩
  have hlt : k < gap x0 x1 := List.mem_range.mp hk
  exact hlt.ne (toward_inj hlt.le le_rfl (hlast.trans (toward_gap x0 x1).symm))

theorem exec_fillrect (x0 y0 x1 y1 : Nat) (s : State) :
    exec (.fillrect x0 y0 x1 y1) s = .next (drawAll s (fillRequests Config.fillIncludeX1 x0 y0 x1 y1)) :=
  exec_drawing (i := .fillrect x0 y0 x1 y1) nofun s

/-- Settles O38: the requests are the product of the columns, which are different and leave out x1, and the rows. -/
theorem fillRequestsColumnByColumn : Obligations.FillRequestsColumnByColumn := by
  intro x0 y0 x1 y1 s
  refine ⟨_, _, exec_fillrect x0 y0 x1 y1 s, drawAll_requests s _, ?_, fillRequests_length x0 y0 x1 y1, ?_, fun y hy => ?_⟩
  · simp only [fillRequests, fillColumns_eq, lineRequests_vertical, List.flatMap_map]
  · rw [fillRequests_eq_product]
    exact (fillColumns_nodup x0 x1).product (nodup_map_toward y0 y1)
  · rw [fillRequests_eq_product, List.mem_product] at hy
    exact not_mem_fillColumns x0 x1 hy.1

/-- Settles O39: a fill of width zero has no column, and the one column x when x1 is included. -/
theorem zeroWidthFillDoesNothing : Obligations.ZeroWidthFillDoesNothing := by
  intro x y0 y1 s
  refine ⟨?_, _, exec_drawline x y0 x y1 s, ?_⟩
  · rw [exec_fillrect, fillRequests, fillColumns_eq, gap_self]
    rfl
  · have hcolumns : fillColumns true x x = [x] := by
      simp [fillColumns, fillCount, magnitude_eq_gap, fillColumn, stepNeg]
    rw [fill_eq_drawAll, fillRequests, hcolumns, List.flatMap_singleton]

end Sys2Proof.Machine
end

section
/-! SUPPORT. What CLEAR sends and what it leaves in display memory (44_clear.md R130 to R133). -/

namespace Sys2Proof.Machine

open Sys2Proof.Safety

/-- The last of `n + 1` zero bytes comes after the other `n`. -/
theorem sendZeros_succ_controller (n : Nat) (s : State) :
    (sendZeros (n + 1) s).controller = (sendZeros n s).controller.apply (.data 0x00#8) := by
  rw [sendZeros_controller, sendZeros_controller, Function.iterate_succ_apply']

/-- Zero bytes move the cursor on by as many cells, from the last cell to the first (20_memory.md R48). -/
theorem sendZeros_key (n : Nat) (s : State) :
    cellKey (sendZeros n s).controller.cx (sendZeros n s).controller.cy =
      (cellKey s.controller.cx s.controller.cy + n) % Config.cells := by
  induction n with
  | zero => exact (Nat.mod_eq_of_lt (cellKey_lt _ _)).symm
  | succ n ih => rw [sendZeros_succ_controller, apply_data_key, ih, Nat.mod_add_mod, Nat.add_assoc]

/-- As many zero bytes as fit before the last cell blank the cells from the cursor on and no other (R130). -/
theorem sendZeros_read {n : Nat} {s : State} (hfit : cellKey s.controller.cx s.controller.cy + n ≤ Config.cells) (a : Nat) :
    Memory.read (sendZeros n s).controller.ddram a =
      if cellKey s.controller.cx s.controller.cy ≤ a ∧ a < cellKey s.controller.cx s.controller.cy + n then some 0x00#8
      else Memory.read s.controller.ddram a := by
  induction n with
  | zero => exact (if_neg fun ⟨hle, hlt⟩ => hle.not_gt hlt).symm
  | succ n ih =>
    have hlt : cellKey s.controller.cx s.controller.cy + n < Config.cells := hfit
    rw [sendZeros_succ_controller, apply_data_ddram, Memory.read_write, sendZeros_key, Nat.mod_eq_of_lt hlt, ih hlt.le]
    by_cases hlast : a = cellKey s.controller.cx s.controller.cy + n
    · rw [if_pos hlast, if_pos (by omega)]
    · rw [if_neg hlast]
      exact if_congr (by omega) rfl rfl

/-- CLEAR blanks the 504 cells and no other key (R130). -/
theorem clear_read (s : State) (a : Nat) :
    Memory.read (sendZeros Config.cells (s.posCur 0 0)).controller.ddram a =
      if a < 504 then some 0x00#8 else Memory.read s.controller.ddram a := by
  have hstart : cellKey (s.posCur 0 0).controller.cx (s.posCur 0 0).controller.cy = 0 := rfl
  rw [sendZeros_read (by rw [hstart, Nat.zero_add]), hstart, Nat.zero_add]
  simp [Config.cells]

/-- CLEAR ends with the cursor back at (0, 0) (R133; the spec's decision D20). -/
theorem clear_cursor (s : State) :
    (sendZeros Config.cells (s.posCur 0 0)).controller.cx = 0 ∧
      (sendZeros Config.cells (s.posCur 0 0)).controller.cy = 0 := by
  apply cellKey_inj
  rw [sendZeros_key, Nat.add_mod_right]
  rfl

/-- After CLEAR no pixel is lit (R130). -/
theorem clear_lit (s : State) {x y : Nat} (h : x < 84 ∧ y < 48) :
    (sendZeros Config.cells (s.posCur 0 0)).controller.lit x y = some false := by
  rw [lit_of_inRange _ h, clear_read, if_pos (by omega), Option.map_some, BitVec.getLsbD_zero]

/-- CLEAR is two commands and one byte for each cell (R131). -/
theorem clearEvents_length : clearEvents.length = 506 := by
  simp only [clearEvents, List.length_cons, List.length_replicate]

/-- Settles O41: what CLEAR sends is `clearEvents`, which begins with the two positioning commands. -/
theorem clearSendsTwoCommandsAndZeros : Obligations.ClearSendsTwoCommandsAndZeros := by
  intro s
  obtain ⟨t, hexec, htrace, -⟩ := everyCommandDoesItsExec .clear s
  have hlength : t.trace.length = s.trace.length + 506 := by
    rw [htrace, List.length_append, execEffect, clearEvents_length]
  exact ⟨t, _, _, hexec, htrace, hlength, rfl, rfl⟩

/-- Settles O42: 504 zero bytes from (0, 0) reach every cell once and bring the cursor round to where it started; the rest is
what CLEAR's Exec leaves alone. -/
theorem clearBlanksTheDisplayAndKeepsTheCache : Obligations.ClearBlanksTheDisplayAndKeepsTheCache := by
  intro s
  obtain ⟨t, hexec, htrace, hcache, -, hrequests, hrunning, hinputs⟩ := everyCommandDoesItsExec .clear s
  obtain rfl : sendZeros Config.cells (s.posCur 0 0) = t := Host.Outcome.next.inj ((exec_clear s).symm.trans hexec)
  obtain ⟨hcx, hcy⟩ := clear_cursor s
  exact ⟨_, hexec, htrace, clear_read s, fun _ _ hx hy => clear_lit s ⟨hx, hy⟩, hcx, hcy, hcache,
    hrequests.trans (List.append_nil _), hinputs, hrunning⟩

end Sys2Proof.Machine
end

section
/-! SUPPORT. A clock cycle of a busy block (60_exceptions.md R144, R155): it moves no input, it holds the event on offer while the
transport is not ready, and else delivers it. -/

namespace Sys2Proof.Machine

open Sys2Proof.Safety

/-- Going on to the next request or byte takes nothing from the inputs. -/
theorem proceed_inputs (r : Running) (s : State) : (proceed r s).inputs = s.inputs := by
  unfold proceed
  split
  · split <;> rfl
  · split
    · obtain ⟨-, -, hinputs, -⟩ := takeUp_cases Config.maxRequests r ‹Draw› _
      exact hinputs
    · rfl

theorem afterEvent_inputs (r : Running) (s : State) : (afterEvent r s).inputs = s.inputs := by
  unfold afterEvent
  split
  · rfl
  · rfl
  · exact proceed_inputs _ s
  · exact proceed_inputs _ s

/-- A busy block with no event to offer goes on at once (notes/assumptions/9.md). -/
theorem cycle_without_offer {p : Pins} {s : State} {r : Running} (hrst : p.rst = false) (hr : s.running = some r)
    (he : r.offer s.cache = none) : cycle p s = proceed r s := by
  simp [cycle, hrst, hr, he]

/-- A cycle of a busy block leaves the inputs, reset or not: what the host offers stays offered (60_exceptions.md R144). -/
theorem cycle_inputs_of_busy (p : Pins) {s : State} (hbusy : s.busy = true) : (cycle p s).inputs = s.inputs := by
  obtain ⟨r, hr⟩ := (busy_iff_running s).mp hbusy
  cases hrst : p.rst with
  | true => rw [cycle_reset s hrst, resetBlock_inputs]
  | false =>
    cases he : r.offer s.cache with
    | none => rw [cycle_without_offer hrst hr he, proceed_inputs]
    | some e =>
      cases hready : p.txReady with
      | false => rw [cycle_stall hrst hready hr he]
      | true => rw [cycle_deliver hrst hready hr he, afterEvent_inputs, send_inputs]

/-- The offered command has no part in the cycle in which it is held (R144). -/
theorem heldCommand_eq_cycle {s : State} (w : CmdWord) (hbusy : s.busy = true) : heldCommand w s = cycle readyPins s :=
  cycle_busy_ignores_command readyPins w hbusy

/-- Settles O50: the step holds the command, and the cycle it is held for neither looks at it nor takes it. -/
theorem commandOfferedWhileBusyStaysOffered : Obligations.CommandOfferedWhileBusyStaysOffered := fun _ w _ hbusy hin =>
  ⟨_, step_held hbusy hin, heldCommand_eq_cycle w hbusy, cycle_inputs_of_busy _ hbusy⟩

/-- The output pins of a busy block with an event on offer (10_state.md R25, 00_scope.md R7). -/
theorem outputs_of_offer {s : State} {r : Running} {e : Send} (hr : s.running = some r) (he : r.offer s.cache = some e) :
    s.outputs false = { cmdReady := false, busy := true, tx := some e.event } := by
  simp [State.outputs, State.busy, hr, he]

/-- Settles O49: an operation in order offers an event, which a stall holds and a ready transport takes. -/
theorem busyBlockOffersAndHoldsItsEvent : Obligations.BusyBlockOffersAndHoldsItsEvent := by
  intro s hinv hbusy
  obtain ⟨r, hr⟩ := (busy_iff_running s).mp hbusy
  obtain ⟨e, he⟩ := offers_of_operationOk (hinv.operation r hr)
  refine ⟨e.event, outputs_of_offer hr he, fun p hrst =>
    ⟨fun hstall => cycle_stall hrst hstall hr he, fun hready => ?_⟩⟩
  rw [cycle_deliver hrst hready hr he, afterEvent_trace, afterEvent_controller]
  exact ⟨send_trace s e, receive_event s.controller e⟩

end Sys2Proof.Machine
end

section
/-! SUPPORT. What a step can be refused for (60_exceptions.md R140, R143). -/

namespace Sys2Proof.Machine

/-- A step that is offered a command goes on, whether the block is busy or idle (R140). -/
theorem step_command_goes_on {s : State} {w : CmdWord} {rest : List Input} (hin : s.inputs = .command w :: rest) :
    ∃ t, step s = .next t := by
  cases hbusy : s.busy with
  | true => exact ⟨_, step_held hbusy hin⟩
  | false =>
    obtain ⟨t, hstep, -⟩ := step_wordEffect hbusy hin
    exact ⟨t, hstep⟩

/-- Settles O12, by what comes from outside: only a foreign byte can be refused, while BUSY = 1 or when it cannot be read. -/
theorem onlyForeignBytesAreRefused : Obligations.OnlyForeignBytesAreRefused := by
  intro s
  match hin : s.inputs with
  | [] => exact .inl ⟨s, step_waiting hin⟩
  | .command w :: rest => exact .inl (step_command_goes_on hin)
  | .clock p :: rest => exact .inl ⟨_, step_clock hin⟩
  | .foreign e :: rest =>
    rw [step_foreign hin]
    cases hbusy : s.busy with
    | true => exact .inr ⟨e, rest, rfl, .inl ⟨rfl, foreignByte_busy e hbusy⟩⟩
    | false =>
      cases he : readEvent e with
      | some x => exact .inl ⟨_, foreignByte_read (s := s.setInputs rest) hbusy he⟩
      | none =>
        have hunread : s.controller.receive e = none := Option.map_eq_none_iff.mpr he
        exact .inr ⟨e, rest, rfl, .inr ⟨rfl, hunread, foreignByte_unread hbusy he⟩⟩

end Sys2Proof.Machine
end

section
/-! SUPPORT. How many requests of a command are accepted (60_exceptions.md R140): different requests in range differ in a
coordinate that takes at most as many values as the surface has columns or rows; each accepted one sends three events. -/

namespace Sys2Proof.Machine

open Sys2Proof.Safety

/-- An accepted request is three events and a dropped one none (41_pixel_write.md R96). -/
theorem drawEffect_length (rs : List Request) (c : Cache) : (drawEffect rs c).1.length = 3 * (accepted rs).length := by
  induction rs generalizing c with
  | nil => rfl
  | cons r rs ih =>
    obtain ⟨x, y⟩ := r
    by_cases h : x < 84 ∧ y < 48
    · simp only [drawEffect, if_pos h, accepted_cons_inRange rs h, List.length_append, ih, pixelEvents, List.length_cons,
        List.length_nil]
      omega
    · simp only [drawEffect, if_neg h, accepted_cons_dropped rs h, ih]

/-- Of requests that differ in `f`, no more are accepted than `f` takes values on the surface. -/
theorem accepted_length_le_of_nodup_map {α : Type} {f : Request → α} {rs : List Request} (values : List α)
    (hnodup : (rs.map f).Nodup) (hvalues : ∀ r : Request, r.1 < 84 ∧ r.2 < 48 → f r ∈ values) :
    (accepted rs).length ≤ values.length := by
  have hdifferent : ((accepted rs).map f).Nodup := hnodup.sublist (List.filter_sublist.map f)
  have hsubset : (accepted rs).map f ⊆ values := fun a ha => by
    obtain ⟨r, hr, rfl⟩ := List.mem_map.mp ha
    exact hvalues r (inRange_of_mem_accepted hr)
  rw [← List.length_map f]
  exact (hdifferent.subperm hsubset).length_le

/-- A line whose driving axis is x has at most one accepted request a column (42_line.md R105). -/
theorem accepted_line_length_le_width {x1 y1 x2 y2 : Nat} (h : gap y1 y2 ≤ gap x1 x2) :
    (accepted (lineRequests x1 y1 x2 y2)).length ≤ 84 := by
  have hnodup : ((lineRequests x1 y1 x2 y2).map Prod.fst).Nodup := by
    rw [lineRequests_map_fst h]; exact nodup_map_toward x1 x2
  simpa using accepted_length_le_of_nodup_map (List.range 84) hnodup fun _ hr => List.mem_range.mpr hr.1

/-- A line whose driving axis is y has at most one a row (R105). -/
theorem accepted_line_length_le_height {x1 y1 x2 y2 : Nat} (h : gap x1 x2 < gap y1 y2) :
    (accepted (lineRequests x1 y1 x2 y2)).length ≤ 48 := by
  have hnodup : ((lineRequests x1 y1 x2 y2).map Prod.snd).Nodup := by
    rw [lineRequests_map_snd h]; exact nodup_map_toward y1 y2
  simpa using accepted_length_le_of_nodup_map (List.range 48) hnodup fun _ hr => List.mem_range.mpr hr.2

/-- So no line has more accepted requests than the surface has columns (60_exceptions.md R140). -/
theorem accepted_line_length_le (x1 y1 x2 y2 : Nat) : (accepted (lineRequests x1 y1 x2 y2)).length ≤ 84 := by
  rcases le_or_gt (gap y1 y2) (gap x1 x2) with h | h
  · exact accepted_line_length_le_width h
  · exact (accepted_line_length_le_height h).trans (by decide)

/-- A vertical line has at most one accepted request a row, be it of one pixel (R108). -/
theorem accepted_vertical_length_le (u v w : Nat) : (accepted (lineRequests w u w v)).length ≤ 48 := by
  rcases Nat.eq_zero_or_pos (gap u v) with hzero | hpos
  · calc (accepted (lineRequests w u w v)).length
      _ ≤ (lineRequests w u w v).length := List.length_filter_le ..
      _ = 1 := by rw [lineRequests_length, gap_self, hzero]; rfl
      _ ≤ 48 := by decide
  · exact accepted_line_length_le_height (by rwa [gap_self])

/-- An outline has at most two full rows and two full columns of accepted requests (60_exceptions.md R140). -/
theorem accepted_rect_length_le (l t r b : Nat) : (accepted (rectRequests l t r b)).length ≤ 264 := by
  have htop := accepted_line_length_le l t r t
  have hbottom := accepted_line_length_le l b r b
  have hleft := accepted_vertical_length_le t b l
  have hright := accepted_vertical_length_le t b r
  simp only [rectRequests, accepted_append, List.length_append]
  omega

/-- A fill requests no pixel twice (43_rectangles.md R125). -/
theorem fillRequests_nodup (x0 y0 x1 y1 : Nat) : (fillRequests Config.fillIncludeX1 x0 y0 x1 y1).Nodup := by
  rw [fillRequests_eq_product]
  exact (fillColumns_nodup x0 x1).product (nodup_map_toward y0 y1)

/-- A fill has at most one accepted request a pixel of the surface (R140). -/
theorem accepted_fill_length_le (x0 y0 x1 y1 : Nat) :
    (accepted (fillRequests Config.fillIncludeX1 x0 y0 x1 y1)).length ≤ 84 * 48 := by
  have hnodup : ((fillRequests Config.fillIncludeX1 x0 y0 x1 y1).map id).Nodup := by
    rw [List.map_id]; exact fillRequests_nodup x0 y0 x1 y1
  have hle := accepted_length_le_of_nodup_map (List.range 84 ×ˢ List.range 48) hnodup fun _ hr =>
    List.mem_product.mpr ⟨List.mem_range.mpr hr.1, List.mem_range.mpr hr.2⟩
  rwa [List.length_product, List.length_range, List.length_range] at hle

/-- What a drawing command sends is three events for each accepted request (41_pixel_write.md R96). -/
theorem execEffect_length_drawing {i : Instr} (h : i ≠ .clear) (c : Cache) :
    (execEffect i c).1.length = 3 * (accepted (requestsOf i)).length := by
  rw [execEffect_drawing h, drawEffect_length]

/-- No command sends more events than R140 gives it. -/
theorem execEffect_length_le (i : Instr) (c : Cache) : (execEffect i c).1.length ≤ maxEvents i := by
  by_cases h : i = .clear
  · subst h; exact clearEvents_length.le
  rw [execEffect_length_drawing h]
  cases i with
  | clear => exact absurd rfl h
  | setpixel x y => exact Nat.mul_le_mul_left 3 (List.length_filter_le _ [(x, y)])
  | drawline x1 y1 x2 y2 => exact Nat.mul_le_mul_left 3 (accepted_line_length_le x1 y1 x2 y2)
  | drawrect l t r b => exact Nat.mul_le_mul_left 3 (accepted_rect_length_le l t r b)
  | fillrect x0 y0 x1 y1 => exact Nat.mul_le_mul_left 3 (accepted_fill_length_le x0 y0 x1 y1)

/-! ### Requests, accepted or not -/

/-- The magnitudes of a command whose four operands fit their fields (42_line.md R109). -/
theorem gaps_le_of_operands {a b c d : Nat} (h : ∀ n ∈ [a, b, c, d], n < 256) : gap a c ≤ 255 ∧ gap b d ≤ 255 := by
  simp only [List.forall_mem_cons] at h
  obtain ⟨ha, hb, hc, hd, -⟩ := h
  exact ⟨gap_le (Nat.le_of_lt_succ ha) (Nat.le_of_lt_succ hc), gap_le (Nat.le_of_lt_succ hb) (Nat.le_of_lt_succ hd)⟩

theorem lineRequests_length_le {x1 y1 x2 y2 : Nat} (h : WellFormed (.drawline x1 y1 x2 y2)) :
    (lineRequests x1 y1 x2 y2).length ≤ 256 := by
  obtain ⟨hx, hy⟩ := gaps_le_of_operands ((wellFormed_iff _).mp h)
  rw [lineRequests_length]
  exact Nat.succ_le_succ (max_le hx hy)

/-- An outline makes one request a pixel of its four edges (43_rectangles.md R117). -/
theorem rectRequests_length (l t r b : Nat) : (rectRequests l t r b).length = 2 * gap l r + 2 * gap t b + 4 := by
  rw [rectRequests_eq_append, List.length_append, rowEdges_length, columnEdges_length]
  omega

theorem rectRequests_length_le {l t r b : Nat} (h : WellFormed (.drawrect l t r b)) :
    (rectRequests l t r b).length ≤ 1024 := by
  obtain ⟨hx, hy⟩ := gaps_le_of_operands ((wellFormed_iff _).mp h)
  rw [rectRequests_length]
  omega

/-! ### The bounds that are reached -/

/-- Requests all in range are all accepted (41_pixel_write.md R92). -/
theorem accepted_eq_self {rs : List Request} (h : ∀ r ∈ rs, r.1 < 84 ∧ r.2 < 48) : accepted rs = rs :=
  List.filter_eq_self.mpr fun r hr => (inRange_iff r.1 r.2).mpr (h r hr)

/-- The outline of the whole surface lies in it, with its two full rows and two full columns (60_exceptions.md R140). -/
theorem accepted_border_length : (accepted (rectRequests 0 0 83 47)).length = 264 := by
  have hinside : ∀ q ∈ rectRequests 0 0 83 47, q.1 < 84 ∧ q.2 < 48 := fun ⟨x, y⟩ hq => by
    rw [mem_rectRequests] at hq
    dsimp only
    omega
  rw [accepted_eq_self hinside, rectRequests_length]
  rfl

/-- The fill from the first column to the one after the last is the whole surface (R140). -/
theorem accepted_surface_length : (accepted (fillRequests Config.fillIncludeX1 0 0 84 47)).length = 4032 := by
  have hinside : ∀ q ∈ fillRequests Config.fillIncludeX1 0 0 84 47, q.1 < 84 ∧ q.2 < 48 := fun ⟨x, y⟩ hq => by
    rw [fillRequests_eq_product, List.mem_product, fillColumns_eq, List.mem_map, mem_map_toward] at hq
    obtain ⟨⟨k, hk, hx⟩, -, hy⟩ := hq
    have hlt : k < 84 := List.mem_range.mp hk
    simp only [toward, Nat.not_lt_zero, if_false, Nat.zero_add] at hx
    dsimp only
    omega
  rw [accepted_eq_self hinside, fillRequests_length]
  rfl

/-- Settles O23: a command sends what Exec gives it, at most three events for each pixel of the surface it may reach; the
whole surface and its border reach the bounds. -/
theorem everyCommandIsBounded : Obligations.EveryCommandIsBounded := by
  refine ⟨fun i s => ?_, ?_, ?_⟩
  · obtain ⟨t, hexec, htrace, -⟩ := everyCommandDoesItsExec i s
    have hlength : t.trace.length = s.trace.length + (execEffect i s.cache).1.length := by
      rw [htrace, List.length_append]
    refine ⟨t, hexec, hlength.trans_le (Nat.add_le_add_left (execEffect_length_le i s.cache) _), ?_, fun hwf => ?_⟩
    · rintro rfl
      exact hlength.trans (congrArg (s.trace.length + ·) clearEvents_length)
    · cases i with
      | clear => exact le_rfl
      | setpixel x y => exact le_rfl
      | drawline x1 y1 x2 y2 => exact lineRequests_length_le hwf
      | drawrect l t r b => exact rectRequests_length_le hwf
      | fillrect x0 y0 x1 y1 => exact requestsOf_length_le hwf
  · rw [requestsOf, accepted_border_length, maxEvents]
  · rw [requestsOf, accepted_surface_length, maxEvents]

end Sys2Proof.Machine
end

section
/-! SUPPORT. Reset and the first command after it (70_reset_and_hazards.md R160 to R163): a reset cycle reaches the block alone,
and what it cuts off is the rest of the running operation's events. -/

namespace Sys2Proof.Machine

open Sys2Proof.Safety

/-- An idle block has nothing to deliver, so it stays as it is until a command is offered (R162). -/
theorem cycles_idle {s : State} {ps : List Pins} (hidle : s.running = none) (hq : quiet ps) : cycles ps s = s :=
  (Delivers.idle hidle).cycles_eq hq (Nat.zero_le _)

/-- Quiet cycles after a reset cycle leave the block as reset left it (R161, R162). -/
theorem cycles_reset {z : Pins} {qs : List Pins} (s : State) (hrst : z.rst = true) (hq : quiet qs) :
    cycles (z :: qs) s = s.resetBlock := by
  rw [cycles_cons, cycle_reset s hrst]
  exact cycles_idle (resetBlock_running s) hq

theorem outputs_of_idle {s : State} (h : s.running = none) :
    s.outputs false = { cmdReady := true, busy := false, tx := none } := by
  simp [State.outputs, State.busy, h]

/-- The controller consumes the new events of a whole command (00_scope.md R14 (c)). -/
theorem exec_newEvents {i : Instr} {s t : State} (h : exec i s = .next t) :
    t.trace = s.trace ++ newEvents s t ∧ s.controller.receiveAll (newEvents s t) = some t.controller := by
  obtain ⟨es, htrace, hreceived⟩ := hasSent_exec h
  have hnew : newEvents s t = es := by rw [newEvents, htrace, List.drop_left]
  rw [hnew]
  exact ⟨htrace, hreceived⟩

/-- However far quiet cycles take an accepted command, they have sent as many of its events as there were ready cycles, and the
controller has consumed them: all of them when the command is over, the first ones while BUSY = 1 (10_state.md R25). -/
theorem cycles_accepted_trace {s t : State} {p : Pins} {ps : List Pins} {i : Instr} (hidle : s.busy = false)
    (hrst : p.rst = false) (hvalid : p.cmdValid = true) (hdec : decode p.cmd = .instr i) (hexec : exec i s = .next t)
    (hq : quiet ps) :
    (cycles (p :: ps) s).trace = s.trace ++ (newEvents s t).take (readyCount ps) ∧
      s.controller.receiveAll ((newEvents s t).take (readyCount ps)) = some (cycles (p :: ps) s).controller := by
  rcases Nat.lt_or_ge (readyCount ps) (newEvents s t).length with hbusy | hdone
  · exact (busyUntilTheLastEventIsDelivered s t p ps i hidle hrst hvalid hdec hexec hq hbusy).2
  · rw [clockedBlockRefinesExec s t p ps i hidle hrst hvalid hdec hexec hq hdone, List.take_of_length_le hdone]
    exact exec_newEvents hexec

/-- Settles O53: the events delivered before the reset are the first of the command's; the reset block then stays idle. -/
theorem resetCutsTheOperationAtAnEvent : Obligations.ResetCutsTheOperationAtAnEvent := by
  intro s t p z ps qs i hidle hrst hvalid hdec hexec hps hz hqs
  obtain ⟨htrace, hreceived⟩ := cycles_accepted_trace hidle hrst hvalid hdec hexec hps
  have hcut : cycles (p :: ps ++ z :: qs) s = (cycles (p :: ps) s).resetBlock := by
    rw [cycles_append, cycles_reset _ hz hqs]
  exact ⟨_, hcut, rfl, resetBlock_cache _, htrace, hreceived⟩

/-- Settles O48: the cycle is a reset of the block, which leaves it idle and touches nothing but the block. -/
theorem resetCycleResetsTheBlockAlone : Obligations.ResetCycleResetsTheBlockAlone := by
  intro s p hrst
  rw [cycle_reset s hrst]
  exact ⟨rfl, outputs_of_idle (resetBlock_running s), resetBlock_cache s, rfl, resetBlock_trace s, resetBlock_controller s,
    resetBlock_requests s, resetBlock_inputs s⟩

/-- Settles O11: the reset state is idle with no input; an offered canonical word decodes to its command, which completes. -/
theorem afterResetAnyCommandMayBeTheFirst : Obligations.AfterResetAnyCommandMayBeTheFirst := by
  refine ⟨rfl, step_waiting rfl, fun i hi => ?_⟩
  obtain ⟨t, hexec, -⟩ := everyCommandDoesItsExec i State.reset
  have hstep := stepRunsTheDecodedCommand { State.reset with inputs := [.command (encode i)] } (encode i) [] i rfl rfl
    (decodeOfEncodeGivesTheCommandBack i hi)
  exact ⟨t, hstep.trans hexec, hexec⟩

end Sys2Proof.Machine
end

section
/-! SUPPORT. Fills that draw the column at x1 (43_rectangles.md R121, 70_reset_and_hazards.md R176). -/

namespace Sys2Proof.Machine

open Sys2Proof.Safety

/-- With x1 included the columns of a fill are all the steps from x0 to x1 (R121). -/
theorem fillColumns_including_eq (x0 x1 : Nat) :
    fillColumns true x0 x1 = (List.range (gap x0 x1 + 1)).map (toward x0 x1) := by
  rw [fillColumns, fillCount, magnitude_eq_gap, if_pos rfl]
  refine List.map_congr_left fun k _ => ?_
  simp [fillColumn, stepNeg, toward]

/-- A fill with x1 included requests the whole rectangle (R121, R123). -/
theorem mem_fillRequests_including {x0 y0 x1 y1 x y : Nat} :
    (x, y) ∈ fillRequests true x0 y0 x1 y1 ↔ min x0 x1 ≤ x ∧ x ≤ max x0 x1 ∧ min y0 y1 ≤ y ∧ y ≤ max y0 y1 := by
  rw [fillRequests_eq_product, List.mem_product, fillColumns_including_eq, mem_map_toward, mem_map_toward, and_assoc]

/-- A target one column further on, in the same direction, leaves itself out and so includes x1 (R176). -/
theorem fillColumns_one_further {x0 x1 x2 : Nat} (hgap : gap x0 x2 = gap x0 x1 + 1) (hdir : x2 < x0 ↔ x1 < x0) :
    fillColumns Config.fillIncludeX1 x0 x2 = fillColumns true x0 x1 := by
  rw [fillColumns_eq, fillColumns_including_eq, hgap]
  refine List.map_congr_left fun k _ => ?_
  simp only [toward, hdir]

theorem fillrect_one_further {x0 x1 x2 : Nat} (y0 y1 : Nat) (hgap : gap x0 x2 = gap x0 x1 + 1)
    (hdir : x2 < x0 ↔ x1 < x0) : requestsOf (.fillrect x0 y0 x2 y1) = fillRequests true x0 y0 x1 y1 := by
  rw [requestsOf, fillRequests, fillColumns_one_further hgap hdir, fillRequests]

/-- Settles O40: x1 + 1 rightwards and x1 − 1 leftwards are one column further than x1 in the fill's direction. -/
theorem fillOneFurtherIsInclusive : Obligations.FillOneFurtherIsInclusive := by
  intro x0 y0 x1 y1
  constructor
  · intro hright
    have hrequests := fillrect_one_further (x0 := x0) (x1 := x1) (x2 := x1 + 1) y0 y1 (by unfold gap; omega) (by omega)
    refine ⟨hrequests, fun x y => ?_⟩
    rw [hrequests, mem_fillRequests_including, min_eq_left hright, max_eq_right hright]
  · intro hleft hpos
    have hrequests := fillrect_one_further (x0 := x0) (x1 := x1) (x2 := x1 - 1) y0 y1 (by unfold gap; omega) (by omega)
    refine ⟨hrequests, fun x y => ?_⟩
    rw [hrequests, mem_fillRequests_including, min_eq_right hleft.le, max_eq_left hleft.le]

end Sys2Proof.Machine
end

section
/-! SUPPORT. The cache is stale across CLEAR (70_reset_and_hazards.md R172, 44_clear.md R132; the spec's decision D10). -/

namespace Sys2Proof.Machine

/-- CLEAR leaves the cache alone (R132). -/
theorem clear_cache (s : State) : (sendZeros Config.cells (s.posCur 0 0)).cache = s.cache :=
  sendZeros_cache Config.cells (s.posCur 0 0)

/-- Every bit of ACC lights its pixel in the cell an accepted request writes (41_pixel_write.md R95). -/
theorem pixel_lit_of_acc_bit (s : State) {x y n : Nat} (h : x < 84 ∧ y < 48) (hn : n < 8)
    (hbit : (pixel s (x, y)).cache.acc.getLsbD n = true) :
    (pixel s (x, y)).controller.lit x (y / 8 * 8 + n) = some true := by
  have hrow : (y / 8 * 8 + n) % 8 = n := by omega
  rw [pixel_lit_of_same_cell s h (by omega) (by omega), hrow, hbit]

/-- After CLEAR, one accepted request leaves ACC in its own cell and every other cell blank (20_memory.md R46). -/
theorem pixel_after_clear_read (s : State) {x y : Nat} (h : x < 84 ∧ y < 48) {a : Nat} (ha : a < 504) :
    Memory.read (pixel (sendZeros Config.cells (s.posCur 0 0)) (x, y)).controller.ddram a =
      some (if a = y / 8 * 84 + x then (pixel (sendZeros Config.cells (s.posCur 0 0)) (x, y)).cache.acc else 0#8) := by
  rw [pixel_read_of_inRange _ h, clear_read, if_pos ha, apply_ite some]

/-- Settles O43: CLEAR leaves x in PREVX and the old bits in ACC, so the second request carries them on. -/
theorem cacheIsStaleAcrossClear : Obligations.CacheIsStaleAcrossClear := by
  intro s x y₁ y₂ hx hy₁ hy₂
  have h₁ : x < 84 ∧ y₁ < 48 := ⟨hx, hy₁⟩
  have h₂ : x < 84 ∧ y₂ < 48 := ⟨hx, hy₂⟩
  have hcarried : (pixel (sendZeros Config.cells ((pixel s (x, y₁)).posCur 0 0)) (x, y₂)).cache.acc =
      (pixel s (x, y₁)).cache.acc ||| (1#8 <<< (y₂ % 8)) := by
    rw [pixel_acc_of_inRange _ h₂, clear_cache, accAfter_of_prevx_eq y₂ (pixel_prevx_of_inRange s h₁).symm]
  refine ⟨_, _, _, exec_setpixel x y₁ s, exec_clear _, exec_setpixel x y₂ _, hcarried,
    pixel_lit_of_acc_bit _ h₂ (Nat.mod_lt y₁ (by decide)) ?_, fun _ ha => pixel_after_clear_read _ h₂ ha⟩
  rw [hcarried, BitVec.getLsbD_or, pixel_acc_of_inRange s h₁, accAfter_has_bit, Bool.true_or]

end Sys2Proof.Machine
end
